-- ==== Sys2Proof/Word.lean ====
section
/-! DEFINITION. The machine's two bit widths: the byte (rule R11, rule R20, rule R50) and the 9-bit
program counter (rule R28). Nothing on this hardware is signed and nothing is wider than a byte but the
program counter, so there is no sign extension and no byte order to fix (rule R11, rule R55). -/

namespace Sys2Proof

/-- A byte: an unsigned integer in 0 to 255 (rule R11). Registers, memory cells, opcode bytes and operand
bytes are all of this width. -/
abbrev Byte := BitVec 8

/-- The program counter's 9 bits, holding 0 to 256 (rule R28; log entry 6). -/
abbrev Pc := BitVec 9

end Sys2Proof
end

