-- ==== Sys2Proof/Syntax.lean ====
section
/-! DEFINITION. The instruction set: one constructor per row of spec/opcode_table.json, seven in all
(rule R2, rule R85). Operand bytes are kept whole, as rule R83 reads them: a register index is a whole
byte, legal in 0 to 7, and a byte of 8 or more is an instruction that raises its fault when it runs
(rule R117). Each instruction also keeps the pc-control bit of its opcode byte, which has no effect
(rule R87) and is needed only because a fault record names the opcode byte as fetched (rule R178;
log entry 7). -/

namespace Sys2Proof

/-- One instruction as the decoder reads it. `pcc` is the pc-control bit of the opcode byte. -/
inductive Instr where
  /-- HALT, rule R120. -/
  | halt (pcc : Bool)
  /-- LOAD-IMMEDIATE, rule R150: target register index `r`, literal `v`. -/
  | loadImmediate (pcc : Bool) (r v : Byte)
  /-- PRINT-REGISTER, rule R151: register index `r`. -/
  | printRegister (pcc : Bool) (r : Byte)
  /-- PUSH, rule R160: source register index `r`. -/
  | push (pcc : Bool) (r : Byte)
  /-- POP, rule R161: destination register index `r`. -/
  | pop (pcc : Bool) (r : Byte)
  /-- ADD, rule R141: destination and first source `a`, second source `b`. -/
  | add (pcc : Bool) (a b : Byte)
  /-- MUL, rule R142: destination and first source `a`, second source `b`. -/
  | mul (pcc : Bool) (a b : Byte)
  deriving DecidableEq, Repr

/-- The operand bytes in the order of their addresses (rule R80, rule R97). -/
def Instr.operands : Instr → List Byte
  | .halt _ => []
  | .loadImmediate _ r v => [r, v]
  | .printRegister _ r => [r]
  | .push _ r => [r]
  | .pop _ r => [r]
  | .add _ a b => [a, b]
  | .mul _ a b => [a, b]

/-- The operand bytes that are register indices, in operand order (rule R83, rule R117). -/
def Instr.registerOperands : Instr → List Byte
  | .halt _ => []
  | .loadImmediate _ r _ => [r]
  | .printRegister _ r => [r]
  | .push _ r => [r]
  | .pop _ r => [r]
  | .add _ a b => [a, b]
  | .mul _ a b => [a, b]

/-- The pc-control bit of the instruction's opcode byte (rule R81). -/
def Instr.pcc : Instr → Bool
  | .halt p => p
  | .loadImmediate p _ _ => p
  | .printRegister p _ => p
  | .push p _ => p
  | .pop p _ => p
  | .add p _ _ => p
  | .mul p _ _ => p

/-- The same instruction with the pc-control bit set to `p` (rule R87). -/
def Instr.withPcc (p : Bool) : Instr → Instr
  | .halt _ => .halt p
  | .loadImmediate _ r v => .loadImmediate p r v
  | .printRegister _ r => .printRegister p r
  | .push _ r => .push p r
  | .pop _ r => .pop p r
  | .add _ a b => .add p a b
  | .mul _ a b => .mul p a b

end Sys2Proof
end

