-- ==== Sys2Proof/Decode.lean ====
section
/-! DEFINITION. The instruction encoding: the Instruction Decoder of rule R82, the opcode table of rule R85,
selection with its three rejections (rule R88, rule R89), the decoder of a whole instruction from bytes,
and the encoder written from the same table. Everything here is total on any bytes. -/

namespace Sys2Proof

/-- The Instruction Descriptor, the four fields of an opcode byte (rule R81). A local value of a step,
never state (rule R34). -/
structure Descriptor where
  count : BitVec 2
  alu : Bool
  pcc : Bool
  id : BitVec 4
  deriving DecidableEq, Repr

/-- The seven operations an opcode byte can select (rule R2). -/
inductive Operation where
  | halt | loadImmediate | printRegister | push | pop | add | mul
  deriving DecidableEq, Repr

/-- One row of the opcode table of rule R85. -/
structure OpcodeRow where
  op : Operation
  alu : Bool
  count : BitVec 2
  id : BitVec 4
  deriving DecidableEq, Repr

/-- Why an opcode byte selects no instruction: the three dispatch faults (rule R89). -/
inductive Reject where
  /-- `alu = 1` and the identity is neither ADD's nor MUL's (rule R171). -/
  | unsupportedOperation
  /-- `alu = 0` and the identity is not HALT's and not in the dispatch table (rule R172). -/
  | dispatchError
  /-- `(alu, id)` names an instruction and `count` is not that instruction's (rule R173). -/
  | illegalEncoding
  deriving DecidableEq, Repr

/-- Why a list of bytes does not begin with an instruction. -/
inductive DecodeError where
  /-- The bytes end before the operand bytes the opcode byte asks for (or before the opcode byte). -/
  | truncated
  /-- All bytes are there and the opcode byte selects nothing. -/
  | rejected (why : Reject)
  deriving DecidableEq, Repr

/-- The Instruction Decoder: `count = b[7:6]`, `alu = b[5]`, `pcc = b[4]`, `id = b[3:0]` (rule R82). -/
def decodeByte (b : Byte) : Descriptor where
  count := b.extractLsb' 6 2
  alu := b.getLsbD 5
  pcc := b.getLsbD 4
  id := b.extractLsb' 0 4

/-- `encode(count, alu, pcc, id) = count * 64 + alu * 32 + pcc * 16 + id` (rule R82). -/
def encodeByte (d : Descriptor) : Byte :=
  BitVec.ofNat 8 (d.count.toNat * 64 + d.alu.toNat * 32 + d.pcc.toNat * 16 + d.id.toNat)

/-- The opcode table of rule R85, row by row. -/
def Operation.row : Operation → OpcodeRow
  | .halt          => ⟨.halt,          false, 0, 0b0001⟩
  | .loadImmediate => ⟨.loadImmediate, false, 2, 0b0010⟩
  | .printRegister => ⟨.printRegister, false, 1, 0b0111⟩
  | .push          => ⟨.push,          false, 1, 0b0101⟩
  | .pop           => ⟨.pop,           false, 1, 0b0110⟩
  | .add           => ⟨.add,           true,  2, 0b0000⟩
  | .mul           => ⟨.mul,           true,  2, 0b0010⟩

/-- The table as a list, in the order of rule R85. -/
def opcodeTable : List OpcodeRow :=
  [Operation.halt.row, Operation.loadImmediate.row, Operation.printRegister.row, Operation.push.row,
    Operation.pop.row, Operation.add.row, Operation.mul.row]

/-- Instruction selection and its rejections (rule R88, rule R89): the key is the pair `(alu, id)`, and
`count` must be the row's; `pcc` is not looked at. -/
def select (d : Descriptor) : Except Reject Operation :=
  match opcodeTable.find? (fun row => row.alu == d.alu && row.id == d.id) with
  | some row => if row.count = d.count then .ok row.op else .error .illegalEncoding
  | none => .error (if d.alu then .unsupportedOperation else .dispatchError)

/-- The halt test of stage 3: `alu = 0`, `id = 0b0001`, `count = 0` (rule R114). -/
def Descriptor.isHalt (d : Descriptor) : Bool := !d.alu && d.id == 0b0001 && d.count == 0

/-- `opnd[k]`, the `k`-th operand byte (rule R12). The 0 stands for no byte and is never read: a selected
operation has exactly its row's number of operand bytes (log entry 17). -/
def operandByte (opnd : List Byte) (k : Nat) : Byte := opnd.getD k 0

/-- The instruction of a selected operation and its operand bytes (rule R83). -/
def Operation.toInstr (op : Operation) (pcc : Bool) (opnd : List Byte) : Instr :=
  match op with
  | .halt => .halt pcc
  | .loadImmediate => .loadImmediate pcc (operandByte opnd 0) (operandByte opnd 1)
  | .printRegister => .printRegister pcc (operandByte opnd 0)
  | .push => .push pcc (operandByte opnd 0)
  | .pop => .pop pcc (operandByte opnd 0)
  | .add => .add pcc (operandByte opnd 0) (operandByte opnd 1)
  | .mul => .mul pcc (operandByte opnd 0) (operandByte opnd 1)

/-- The instruction that a list of bytes begins with, and the bytes after it. The length comes from the
opcode byte alone (rule R84), and missing operand bytes are reported before a byte that selects nothing
(rule R180). -/
def decode : List Byte → Except DecodeError (Instr × List Byte)
  | [] => .error .truncated
  | b :: rest =>
    let d := decodeByte b
    if rest.length < d.count.toNat then .error .truncated
    else match select d with
      | .error why => .error (.rejected why)
      | .ok op => .ok (op.toInstr d.pcc (rest.take d.count.toNat), rest.drop d.count.toNat)

/-- The operation an instruction performs. -/
def Instr.operation : Instr → Operation
  | .halt _ => .halt
  | .loadImmediate _ _ _ => .loadImmediate
  | .printRegister _ _ => .printRegister
  | .push _ _ => .push
  | .pop _ _ => .pop
  | .add _ _ _ => .add
  | .mul _ _ _ => .mul

/-- The descriptor of an instruction, from its row of the table (rule R85). -/
def Instr.descriptor (i : Instr) : Descriptor where
  count := i.operation.row.count
  alu := i.operation.row.alu
  pcc := i.pcc
  id := i.operation.row.id

/-- The opcode byte of an instruction (rule R86). -/
def Instr.opcodeByte (i : Instr) : Byte := encodeByte i.descriptor

/-- The encoder: the opcode byte, then the operand bytes in order (rule R80, rule R97). -/
def encode (i : Instr) : List Byte := i.opcodeByte :: i.operands

/-- Byte `k` of a table word: bits `8k+7` to `8k` of the low `nbits` bits of `w`, the first byte of the
instruction being bits 7 to 0 (rule R55, rule R80). -/
def wordByte (nbits w k : Nat) : Byte := BitVec.ofNat 8 (w % 2 ^ nbits / 2 ^ (8 * k))

/-- The four bytes, first at the lowest address, of an instruction given as a table word; four is the
longest instruction the format can ask for (rule R80). -/
def wordBytes (nbits w : Nat) : List Byte :=
  [wordByte nbits w 0, wordByte nbits w 1, wordByte nbits w 2, wordByte nbits w 3]

/-- The instruction this decoder reads from a table word. -/
def decodeTableWord (nbits w : Nat) : Option Instr :=
  match decode (wordBytes nbits w) with
  | .ok (i, _) => some i
  | .error _ => none

end Sys2Proof
end

