-- ==== Sys2Proof/Config.lean ====
section
/-! DEFINITION. The implementation parameters of rule R9 that the source document leaves open, at the
defaults of spec/92_eei_decisions.md. The sizes the source fixes (256 cells, 8 registers) are no
parameters and stand where they are used. -/

namespace Sys2Proof

/-- What an operation does when its result leaves 0 to 255: the two policies that decisions D8 and D9 name. -/
inductive Policy where
  /-- Raise the fault, write nothing. The policy in force for both parameters. -/
  | fault
  /-- Keep the result modulo 256. Offered by D8 and D9 as an assumed switch; not in force. -/
  | wrap
  deriving DecidableEq, Repr

/-- `SP_RESET`, the reset value of register 7 (rule R26, decision D1, OPEN).
PRESUMED: `0xF4` is the LS-8 teaching machine's value, no number stands in the source (log entry 4). -/
def Config.spReset : Byte := 0xF4

/-- `GPR_RESET`, the reset value of each of registers 0 to 6 (rule R26, decision D2).
DESIGN CHOICE of the spec, the source states no value (log entry 5). -/
def Config.gprReset : Byte := 0x00

/-- `OVERFLOW_POLICY` of ADD and MUL (rule R143, decision D8; log entry 10). -/
def Config.overflowPolicy : Policy := .fault

/-- `STACK_POLICY` of PUSH and POP (rule R164, decision D9; log entry 11). -/
def Config.stackPolicy : Policy := .fault

end Sys2Proof
end

