-- ==== Sys2Proof/Machine/State.lean ====
section
/-! DEFINITION. The machine's state as rule R39 lists it (registers, program counter, run state, fault record,
output log, memory), the state after reset (rule R200), and the reasons a step can give no next state. -/

namespace Sys2Proof.Machine

/-- The run state (rule R31). Only `running` takes a step; the other two are terminal. -/
inductive RunState where
  | running
  | halted
  | faulted
  deriving DecidableEq, Repr

/-- The seven fault kinds, a closed enumeration without numbers (rule R170, rule R183). -/
inductive FaultKind where
  | outOfBounds
  | unsupportedOperation
  | dispatchError
  | illegalEncoding
  | registerIndexOutOfRange
  | arithmeticOverflow
  | stackPointerOutOfRange
  deriving DecidableEq, Repr

/-- The fault record, one constructor per kind with the fields of rule R178. -/
inductive FaultRecord where
  /-- Opcode or operand fetch at an address beyond memory (rule R175). -/
  | outOfBounds (address : Nat) (pc : Pc)
  /-- ALU flag set, identity not ADD's or MUL's (rule R171). -/
  | unsupportedOperation (opcode : Byte) (pc : Pc)
  /-- ALU flag clear, identity not HALT's and not in the dispatch table (rule R172). -/
  | dispatchError (opcode : Byte) (pc : Pc)
  /-- An instruction's `(alu, id)` with another operand count (rule R173). -/
  | illegalEncoding (opcode : Byte) (pc : Pc)
  /-- Register-index operand of 8 or more: its position, its byte (rule R174). -/
  | registerIndexOutOfRange (operand : Fin 2) (index : Byte) (opcode : Byte) (pc : Pc)
  /-- ADD or MUL above 255: the exact sum or product (rule R176). -/
  | arithmeticOverflow (opcode : Byte) (pc : Pc) (result : Nat)
  /-- PUSH or POP would leave 0 to 255: the pointer that could not be stepped (rule R179). -/
  | stackPointerOutOfRange (opcode : Byte) (pc : Pc) (sp : Byte)
  deriving DecidableEq, Repr

/-- Memory: the cells that do not hold what an unlisted address reads as, by rising address. -/
structure Memory where
  cells : List Host.Cell
  deriving DecidableEq, Repr

/-- What an address with no listed cell reads as: memory is "zero-initialized" (rule R50). -/
def Memory.unlisted : Byte := 0x00

/-- The complete state of the machine (rule R39). -/
structure State where
  /-- The register file: eight bytes, index 7 the stack pointer, 5 and 6 placeholders (rule R20, rule R21). -/
  regs : Vector Byte 8
  /-- The program counter, 0 to 256 (rule R28). -/
  pc : Pc
  /-- The run state (rule R31). -/
  runState : RunState
  /-- The fault record, meaningful only when faulted (rule R33). -/
  fault : Option FaultRecord
  /-- The output log, oldest value first (rule R32). -/
  out : List Byte
  /-- The 256 memory cells, code, data and stack alike (rule R37, rule R50, rule R51). -/
  mem : Memory
  deriving DecidableEq, Repr

/-- Reset with the stack pointer's reset value as a parameter (rule R200, decision D1). -/
def State.resetWith (sp : Byte) : State where
  regs := #v[Config.gprReset, Config.gprReset, Config.gprReset, Config.gprReset,
    Config.gprReset, Config.gprReset, Config.gprReset, sp]
  pc := 0
  runState := .running
  fault := none
  out := []
  mem := ⟨[]⟩

/-- The machine right after reset (rule R39, rule R200), with `SP_RESET` at its default (log entries 4, 5). -/
def State.reset : State := State.resetWith Config.spReset

/-- Why `step` answers neither a state nor a refusal. These two are none of the hardware's seven fault kinds,
which are taken as next states (log entry 2): they say that a terminal state has no successor. -/
inductive Fault where
  /-- Raised by `step` alone, in a state whose run state is `halted`: "HALTED is terminal; no further fetches
  occur" (rule R31, rule R122). Safe: the hardware takes no step there either. -/
  | noStepFromHalted
  /-- Raised by `step` alone, in a state whose run state is `faulted`: terminal as well (rule R31, rule R181).
  Safe: the hardware takes no step there either. -/
  | noStepFromFaulted
  deriving DecidableEq, Repr

/-- Why the model gives no meaning. No instruction's meaning answers with one. -/
inductive Refusal where
  /-- Raised by an arm of `exec` whose instruction has no meaning yet; no arm does. Safe. -/
  | notModelled (mnemonic : String)
  /-- Raised by the loader hand-over alone, for a program longer than 256 values or with a value above 255
  (rule R204, decision D19). Safe: the model starts no run there. -/
  | programOutsideLoaderContract
  deriving DecidableEq, Repr

/-- The outcome of an instruction, of a step, of the loader. -/
abbrev Result := Host.Outcome State Fault Refusal

end Sys2Proof.Machine
end

