-- ==== Sys2Proof/Machine/Flags.lean ====
section
/-! DEFINITION. The machine has no status flags (rule R35), so there is no flag to compute. What stands in their
place are the range checks on a result: ADD's and MUL's narrowing (rule R143) and the two steps of the
stack pointer (rule R164). Each answers `none` where the operation must raise its fault. -/

namespace Sys2Proof.Machine

/-- A result above 255, by the policy: no value, or the low 8 bits (decision D8). -/
def outOfRange (p : Policy) (wrapped : Byte) : Option Byte :=
  match p with
  | .fault => none
  | .wrap => some wrapped

/-- An exact result narrowed to a byte: the result when it is 255 or less (rule R143). -/
def narrow (p : Policy) (n : Nat) : Option Byte :=
  if n ≤ 255 then some (BitVec.ofNat 8 n) else outOfRange p (BitVec.ofNat 8 n)

/-- The stack pointer one lower; 0 cannot be stepped (rule R160, rule R164). -/
def spDown (p : Policy) (sp : Byte) : Option Byte :=
  if sp = 0 then outOfRange p (sp - 1) else some (sp - 1)

/-- The stack pointer one higher; 255 cannot be stepped (rule R161, rule R164). -/
def spUp (p : Policy) (sp : Byte) : Option Byte :=
  if sp = 255 then outOfRange p (sp + 1) else some (sp + 1)

end Sys2Proof.Machine
end

