-- ==== Sys2Proof/Machine/Ops.lean ====
section
/-! DEFINITION. The named operations over memory and registers: the memory primitives (rule R52, rule R53), the
register file (rule R20), the output transaction (rule R67), the program counter's write (rule R29), and
taking a fault (rule R177), the machine's only exception entry. There is no return from a fault
(rule R182); reset, the one way out of a terminal state, is in HostInterface.lean. -/

namespace Sys2Proof.Machine

/-! ### Memory -/

/-- The number of memory cells (rule R50). -/
def memSize : Nat := 256

/-- The content of the cell at an address, listed or not. -/
def lookupCell : List Host.Cell → Nat → Byte
  | [], _ => Memory.unlisted
  | c :: cs, a => if c.1 = a then c.2 else lookupCell cs a

/-- Put a cell into a rising list, before the first larger address. -/
def insertCell (a : Nat) (v : Byte) : List Host.Cell → List Host.Cell
  | [] => [(a, v)]
  | c :: cs => if a < c.1 then (a, v) :: c :: cs else c :: insertCell a v cs

/-- The canonical form: addresses strictly rising and in range, no cell equal to what an unlisted one reads as. -/
abbrev Memory.wf (m : Memory) : Prop :=
  m.cells.Pairwise (fun c d => c.1 < d.1) ∧ ∀ c ∈ m.cells, c.1 < memSize ∧ c.2 ≠ Memory.unlisted

/-- Set one cell, keeping the canonical form. -/
def setCell (m : Memory) (a : Nat) (v : Byte) : Memory :=
  let others := m.cells.filter (fun c => c.1 != a)
  ⟨if v = Memory.unlisted then others else insertCell a v others⟩

/-- `MemRead(a, 1)`: the cell's byte, or `none`, which raises `OutOfBounds(a)` (rule R52). -/
def memRead (m : Memory) (a : Nat) : Option Byte :=
  if a < memSize then some (lookupCell m.cells a) else none

/-- `MemWrite(a, 1, v)`: the memory with that one cell set, or `none`, which raises `OutOfBounds(a)` (rule R53). -/
def memWrite (m : Memory) (a : Nat) (v : Byte) : Option Memory :=
  if a < memSize then some (setCell m a v) else none

/-! ### Registers, program counter, output log, run state -/

/-- The stack pointer's index (rule R23). -/
def spIndex : Fin 8 := 7

/-- The interrupt mask's index, a placeholder (rule R24). -/
def interruptMaskIndex : Fin 8 := 5

/-- The interrupt status's index, a placeholder (rule R24). -/
def interruptStatusIndex : Fin 8 := 6

/-- `x[i]`: a plain indexed read, the same for every index (rule R22). -/
def State.reg (s : State) (i : Fin 8) : Byte := s.regs[i]

/-- `x[i] <- v`: a plain indexed write, the same for every index (rule R22). -/
def State.setReg (s : State) (i : Fin 8) (v : Byte) : State := { s with regs := s.regs.set i v }

/-- `pc <- p`; the engine's alone (rule R29). -/
def State.setPc (s : State) (p : Pc) : State := { s with pc := p }

/-- The state with another memory. -/
def State.setMem (s : State) (m : Memory) : State := { s with mem := m }

/-- `Emit(v)`: the sink accepts every value, returns nothing and cannot fail (rule R32, rule R67). -/
def State.emit (s : State) (v : Byte) : State := { s with out := s.out ++ [v] }

/-- `run_state <- HALTED` (rule R120). -/
def State.halt (s : State) : State := { s with runState := .halted }

/-! ### Taking a fault -/

/-- Fault entry: exactly the run state and the fault record change (rule R177, rule R181). -/
def takeFault (r : FaultRecord) (s : State) : State := { s with runState := .faulted, fault := some r }

/-- `raise`: the step ends in the fault, a next state whose run state is terminal (rule R12, rule R177; log entry 2). -/
def raise (r : FaultRecord) (s : State) : Result := .next (takeFault r s)

/-- The kind of a fault record (rule R178, rule R183). -/
def recordKind : FaultRecord → FaultKind
  | .outOfBounds _ _ => .outOfBounds
  | .unsupportedOperation _ _ => .unsupportedOperation
  | .dispatchError _ _ => .dispatchError
  | .illegalEncoding _ _ => .illegalEncoding
  | .registerIndexOutOfRange _ _ _ _ => .registerIndexOutOfRange
  | .arithmeticOverflow _ _ _ => .arithmeticOverflow
  | .stackPointerOutOfRange _ _ _ => .stackPointerOutOfRange

/-- The pc a fault record names: the address of the faulting instruction's opcode byte (rule R178). -/
def recordPc : FaultRecord → Pc
  | .outOfBounds _ p => p
  | .unsupportedOperation _ p => p
  | .dispatchError _ p => p
  | .illegalEncoding _ p => p
  | .registerIndexOutOfRange _ _ _ p => p
  | .arithmeticOverflow _ p _ => p
  | .stackPointerOutOfRange _ p _ => p

end Sys2Proof.Machine
end

