-- ==== Sys2Proof/Machine/Operands.lean ====
section
/-! DEFINITION. The two operand forms (rule R83): a literal byte is used as it stands, so it needs no operation; a
register index is a whole byte, checked before it is used (rule R117). And the one address a data access
is made at, the stack pointer widened (rule R54). -/

namespace Sys2Proof.Machine

/-- The register a byte names; not masked to three bits (rule R25). -/
def regIndex (b : Byte) : Option (Fin 8) :=
  if h : b.toNat < 8 then some ⟨b.toNat, h⟩ else none

/-- The operand byte that names register `i`: the index itself, whole (rule R83). -/
def indexByte (i : Fin 8) : Byte := BitVec.ofNat 8 i.val

/-- Register operand resolution (rule R117): the operand at position `pos` names a register and `k` goes on
with it, or the step raises RegisterIndexOutOfRange with that position and byte (rule R174; log entry 9). -/
def withReg (pos : Fin 2) (b opcode : Byte) (s : State) (k : Fin 8 → Result) : Result :=
  match regIndex b with
  | some i => k i
  | none => raise (.registerIndexOutOfRange pos b opcode s.pc) s

/-- The address of a stack access: `zext_9` of a stack pointer, always a cell (rule R160, rule R161). -/
def stackAddress (sp : Byte) : Nat := (sp.setWidth 9).toNat

end Sys2Proof.Machine
end

