-- ==== Sys2Proof/Machine/Alu.lean ====
section
/-! DEFINITION. The ALU's two instructions, ADD (rule R141) and MUL (rule R142), over one shared operation. -/

namespace Sys2Proof.Machine

/-- The ALU's contract (rule R140, rule R143): both operands resolved, operand 0 first; the exact result on
natural numbers; written to the first operand's register when it fits, ArithmeticOverflow otherwise. -/
def aluApply (f : Nat → Nat → Nat) (opcode a b : Byte) (s : State) : Result :=
  withReg 0 a opcode s fun i =>
  withReg 1 b opcode s fun j =>
    let n := f (s.reg i).toNat (s.reg j).toNat
    match narrow Config.overflowPolicy n with
    | some v => .next (s.setReg i v)
    | none => raise (.arithmeticOverflow opcode s.pc n) s

/-- ADD, "sum" (rule R141). -/
def execAdd (pcc : Bool) (a b : Byte) (s : State) : Result :=
  aluApply (fun m n => m + n) (Instr.add pcc a b).opcodeByte a b s

/-- MUL, "product" (rule R142). -/
def execMul (pcc : Bool) (a b : Byte) (s : State) : Result :=
  aluApply (fun m n => m * n) (Instr.mul pcc a b).opcodeByte a b s

end Sys2Proof.Machine
end

