-- ==== Sys2Proof/Machine/Halt.lean ====
section
/-! DEFINITION. HALT (rule R120), the instruction the engine takes at stage 3 without the dispatch table. -/

namespace Sys2Proof.Machine

/-- HALT: the run state becomes HALTED and nothing else changes, the pc included (rule R120). -/
def execHalt (_pcc : Bool) (s : State) : Result := .next s.halt

end Sys2Proof.Machine
end

