-- ==== Sys2Proof/Machine/LoadPrint.lean ====
section
/-! DEFINITION. The two dispatch-table handlers without memory access: LOAD-IMMEDIATE (rule R150) and
PRINT-REGISTER (rule R151). -/

namespace Sys2Proof.Machine

/-- LOAD-IMMEDIATE: the target register takes the literal byte as it stands (rule R150). -/
def execLoadImmediate (pcc : Bool) (r v : Byte) (s : State) : Result :=
  withReg 0 r (Instr.loadImmediate pcc r v).opcodeByte s fun i => .next (s.setReg i v)

/-- PRINT-REGISTER: the register's value goes to the output log (rule R151). -/
def execPrintRegister (pcc : Bool) (r : Byte) (s : State) : Result :=
  withReg 0 r (Instr.printRegister pcc r).opcodeByte s fun i => .next (s.emit (s.reg i))

end Sys2Proof.Machine
end

