-- ==== Sys2Proof/Machine/Stack.lean ====
section
/-! DEFINITION. The two stack instructions, PUSH (rule R160) and POP (rule R161). The order of the two actions
inside each is the order of the source's sentences and shows only when the operand is register 7
(rule R165, decision D11; log entry 12). -/

namespace Sys2Proof.Machine

/-- PUSH: decrement the stack pointer, then read the register, then store at the new pointer (rule R160). -/
def execPush (pcc : Bool) (r : Byte) (s : State) : Result :=
  let opcode := (Instr.push pcc r).opcodeByte
  withReg 0 r opcode s fun i =>
    match spDown Config.stackPolicy (s.reg spIndex) with
    | none => raise (.stackPointerOutOfRange opcode s.pc (s.reg spIndex)) s
    | some sp =>
      let lowered := s.setReg spIndex sp
      match memWrite s.mem (stackAddress sp) (lowered.reg i) with
      | some m => .next (lowered.setMem m)
      | none => raise (.outOfBounds (stackAddress sp) s.pc) s

/-- POP: load the register from the stack pointer's address, then increment the pointer as it stands after
the load (rule R161). -/
def execPop (pcc : Bool) (r : Byte) (s : State) : Result :=
  let opcode := (Instr.pop pcc r).opcodeByte
  withReg 0 r opcode s fun i =>
    match memRead s.mem (stackAddress (s.reg spIndex)) with
    | none => raise (.outOfBounds (stackAddress (s.reg spIndex)) s.pc) s
    | some v =>
      let loaded := s.setReg i v
      match spUp Config.stackPolicy (loaded.reg spIndex) with
      | none => raise (.stackPointerOutOfRange opcode s.pc (loaded.reg spIndex)) s
      | some sp => .next (loaded.setReg spIndex sp)

end Sys2Proof.Machine
end

