-- ==== Sys2Proof/Machine/Dispatch.lean ====
section
/-! DEFINITION. The execute stage (rule R118): one arm per instruction, each a call of its meaning. The pc's
advance is the engine's, not the instruction's (rule R29, rule R119; log entry 1). -/

namespace Sys2Proof.Machine

/-- The effect of one instruction on the state, the pc's advance apart (rule R118). -/
def exec (i : Instr) (s : State) : Host.Outcome State Fault Refusal :=
  match i with
  | .halt p => Sys2Proof.Machine.execHalt p s
  | .loadImmediate p r v => Sys2Proof.Machine.execLoadImmediate p r v s
  | .printRegister p r => Sys2Proof.Machine.execPrintRegister p r s
  | .push p r => Sys2Proof.Machine.execPush p r s
  | .pop p r => Sys2Proof.Machine.execPop p r s
  | .add p a b => Sys2Proof.Machine.execAdd p a b s
  | .mul p a b => Sys2Proof.Machine.execMul p a b s

end Sys2Proof.Machine
end

