-- ==== Sys2Proof/Machine/Fetch.lean ====
section
/-! DEFINITION. The engine's two fetch stages (rule R111, rule R113), the record of a dispatch fault (rule R178),
and placing an instruction where the next step fetches it. -/

namespace Sys2Proof.Machine

/-- Stage 1: the opcode byte at the pc; `none` raises `OutOfBounds(pc)` (rule R111). -/
def fetchOpcode (s : State) : Option Byte := memRead s.mem s.pc.toNat

/-- Stage 4: `n` bytes from address `a` upward, one read at a time, or the first address that is outside
memory (rule R113). -/
def fetchOperands (m : Memory) (a : Nat) : Nat → Except Nat (List Byte)
  | 0 => .ok []
  | n + 1 =>
    match memRead m a with
    | none => .error a
    | some b =>
      match fetchOperands m (a + 1) n with
      | .ok bs => .ok (b :: bs)
      | .error bad => .error bad

/-- The bytes of memory from address `a` upward, at most `n`, stopping at the end of memory. -/
def bytesFrom (m : Memory) (a : Nat) : Nat → List Byte
  | 0 => []
  | n + 1 =>
    match memRead m a with
    | none => []
    | some b => b :: bytesFrom m (a + 1) n

/-- The bytes the next step could fetch: four, the longest instruction of the format, or as many as lie
between the pc and the end of memory (rule R80). -/
def codeAtPc (s : State) : List Byte := bytesFrom s.mem s.pc.toNat 4

/-- The fault record of an opcode byte that selects no instruction (rule R171, rule R172, rule R173). -/
def rejectRecord (why : Reject) (opcode : Byte) (pc : Pc) : FaultRecord :=
  match why with
  | .unsupportedOperation => .unsupportedOperation opcode pc
  | .dispatchError => .dispatchError opcode pc
  | .illegalEncoding => .illegalEncoding opcode pc

/-- Set consecutive cells from address `a` upward, leaving out what would lie outside memory. -/
def storeBytes (m : Memory) (a : Nat) : List Byte → Memory
  | [] => m
  | b :: bs => storeBytes ((memWrite m a b).getD m) (a + 1) bs

/-- Where an instruction with opcode byte `b` is placed: at the pc, or at 0 when its bytes would not fit
between the pc and the end of memory (log entry 16). -/
def placeAddress (s : State) (b : Byte) : Pc :=
  if s.pc.toNat + (decodeByte b).count.toNat < memSize then s.pc else 0

/-- The state made able to take a step: a terminal state becomes a running one without a fault record. -/
def makeRunning (s : State) : State :=
  match s.runState with
  | .running => s
  | .halted | .faulted => { s with runState := .running, fault := none }

/-- A table word's bytes stored where the next step fetches (log entry 16). -/
def placeWord (s : State) (nbits w : Nat) : State :=
  let at' := placeAddress s (wordByte nbits w 0)
  { makeRunning s with pc := at', mem := storeBytes s.mem at'.toNat (wordBytes nbits w) }

end Sys2Proof.Machine
end

