-- ==== Sys2Proof/Machine/Engine.lean ====
section
/-! DEFINITION. The Execution Engine: one step, stage by stage, in the order of rule R110. The order decides which
fault is reported when several apply (rule R180). -/

namespace Sys2Proof.Machine

/-- Stage 6 and 7 (rule R119): an operation that completed and left the machine running has the pc advanced
by the operand count and one; a fault or a halt leaves the pc. -/
def advance (count : Nat) (t : State) : State :=
  if t.runState = .running then t.setPc (t.pc + BitVec.ofNat 9 (count + 1)) else t

/-- The end of a step, from the outcome of the execute stage. -/
def finishStep (count : Nat) (o : Result) : Result :=
  match o with
  | .next t => .next (advance count t)
  | .fault f => .fault f
  | .refused r => .refused r

/-- Stage 5 (rule R115, rule R116): selection, then the selected instruction on its operand bytes. -/
def dispatchStage (ir : Byte) (opnd : List Byte) (s : State) : Result :=
  match select (decodeByte ir) with
  | .error why => raise (rejectRecord why ir s.pc) s
  | .ok op => finishStep (decodeByte ir).count.toNat (exec (op.toInstr (decodeByte ir).pcc opnd) s)

/-- Stages 2 to 7 for a fetched opcode byte: decode, the halt test before any operand fetch (rule R114), the
operand fetch by the byte's own count (rule R113), dispatch. -/
def afterFetch (ir : Byte) (s : State) : Result :=
  if (decodeByte ir).isHalt then exec (.halt (decodeByte ir).pcc) s
  else
    match fetchOperands s.mem (s.pc.toNat + 1) (decodeByte ir).count.toNat with
    | .error a => raise (.outOfBounds a s.pc) s
    | .ok opnd => dispatchStage ir opnd s

/-- One step (rule R110): taken only when running; the two terminal states have no successor (rule R31,
rule R122; log entry 3). -/
def engineStep (s : State) : Result :=
  match s.runState with
  | .halted => .fault .noStepFromHalted
  | .faulted => .fault .noStepFromFaulted
  | .running =>
    match fetchOpcode s with
    | none => raise (.outOfBounds s.pc.toNat s.pc) s
    | some ir => afterFetch ir s

end Sys2Proof.Machine
end

