-- ==== Sys2Proof/Machine/Step.lean ====
section
/-! DEFINITION. The step of the machine and the placing of an instruction for the next step; both only call
Machine/Engine.lean and Machine/Fetch.lean. -/

namespace Sys2Proof.Machine

/-- One step of the machine (rule R110, rule R123). -/
def step (s : State) : Host.Outcome State Fault Refusal := engineStep s

/-- `s` with the instruction of a table word where the next step fetches it (log entry 16). -/
def State.withFetchWord (s : State) (nbits w : Nat) : State := placeWord s nbits w

end Sys2Proof.Machine
end

