-- ==== Sys2Proof/Machine/HostInterface.lean ====
section
/-! DEFINITION. The core's interfaces to the host that are not the step (rule R65): reset (rule R200), the loader
hand-over (rule R66, rule R204), the boot order (rule R203), the status report (rule R68) and the text of
an output line (rule R152). The host acts only before a run and after it (rule R66). -/

namespace Sys2Proof.Machine

/-- Reset, equal to creation, from any state: the only way out of a terminal one (rule R182, rule R200). -/
def resetMachine (_s : State) : State := State.reset

/-- The program values the loader contract covers: at most 256, each 0 to 255 (rule R204, decision D19). -/
def loadable (p : List Nat) : Bool := p.length ≤ memSize && p.all (· ≤ 255)

/-- Successive cells from address `a` set to the values of a program. -/
def storeProgram (m : Memory) (a : Nat) : List Nat → Memory
  | [] => m
  | v :: vs => storeProgram (setCell m a (BitVec.ofNat 8 v)) (a + 1) vs

/-- The loader hand-over: the values go to addresses 0, 1, … and nothing but memory changes; a program the
contract does not cover is refused (rule R204; log entry 16). -/
def loadProgram (p : List Nat) (s : State) : Result :=
  if loadable p then .next (s.setMem (storeProgram s.mem 0 p)) else .refused .programOutsideLoaderContract

/-- Power-on to the first step: reset, then the loader (rule R203). -/
def boot (p : List Nat) : Result := loadProgram p State.reset

/-- The status interface: the run state and, when faulted, the fault record (rule R68). -/
def status (s : State) : RunState × Option FaultRecord := (s.runState, s.fault)

/-- The decimal digits of a number below 1000, most significant first, no leading zero (rule R152). -/
def decimalDigits (n : Nat) : List Nat :=
  if n < 10 then [n]
  else if n < 100 then [n / 10, n % 10]
  else [n / 100, n / 10 % 10, n % 10]

/-- The characters of one output line, as ASCII codes: the value in base ten and one line feed (rule R152;
log entry 14). -/
def outputLine (v : Byte) : List Byte :=
  (decimalDigits v.toNat).map (fun d => BitVec.ofNat 8 (48 + d)) ++ [10]

/-- The whole text the sink shows for an output log (rule R67). -/
def outputText (out : List Byte) : List Byte := out.flatMap outputLine

end Sys2Proof.Machine
end

