-- ==== Sys2Proof/WellFormed.lean ====
section
/-! DEFINITION. When an instruction's operands are legal: every register-index operand is 0 to 7
(rule R25, rule R83). The literal of LOAD-IMMEDIATE has no illegal value. An instruction that fails the
check still decodes and still runs: it raises RegisterIndexOutOfRange (rule R117). -/

namespace Sys2Proof

/-- A byte that names a register (rule R25). -/
def legalIndex (b : Byte) : Bool := b.toNat < 8

/-- Every register-index operand names a register. -/
def Instr.wellFormed (i : Instr) : Bool := i.registerOperands.all legalIndex

end Sys2Proof
end

