-- ==== Sys2Proof/Safety.lean ====
section
/-! DEFINITION. The terms the statements use: the invariant of the machine, which fault records are possible, when
a run has ended, the frames, and what an instruction may touch. -/

namespace Sys2Proof.Machine

/-- The run has ended (rule R122). -/
def Ended (s : State) : Prop := s.runState ≠ .running

/-- A fault record with the opcode byte replaced; a fetch fault's record holds none (rule R178). -/
def recordWithOpcode (b : Byte) : FaultRecord → FaultRecord
  | .outOfBounds a p => .outOfBounds a p
  | .unsupportedOperation _ p => .unsupportedOperation b p
  | .dispatchError _ p => .dispatchError b p
  | .illegalEncoding _ p => .illegalEncoding b p
  | .registerIndexOutOfRange k x _ p => .registerIndexOutOfRange k x b p
  | .arithmeticOverflow _ p n => .arithmeticOverflow b p n
  | .stackPointerOutOfRange _ p sp => .stackPointerOutOfRange b p sp

/-- The opcode byte selects this operation (rule R88). -/
abbrev selects (b : Byte) (op : Operation) : Prop := select (decodeByte b) = .ok op

/-- The records a step can leave, by kind: the failing address is 256 (rule R175), the opcode byte is one that
raises the kind (rule R171 to rule R174), the result and the pointer are out of range (rule R176, rule R179). -/
def RecordPossible : FaultRecord → Prop
  | .outOfBounds a _ => a = memSize
  | .unsupportedOperation b _ => select (decodeByte b) = .error .unsupportedOperation
  | .dispatchError b _ => select (decodeByte b) = .error .dispatchError
  | .illegalEncoding b _ => select (decodeByte b) = .error .illegalEncoding
  | .registerIndexOutOfRange k x b _ =>
    8 ≤ x.toNat ∧ (∃ op, selects b op ∧ op ≠ .halt ∧ (k = 1 → op = .add ∨ op = .mul))
  | .arithmeticOverflow b _ n => 255 < n ∧ ((selects b .add ∧ n ≤ 510) ∨ (selects b .mul ∧ n ≤ 65025))
  | .stackPointerOutOfRange b _ sp => (selects b .push ∧ sp = 0) ∨ (selects b .pop ∧ sp = 255)

/-- The invariant every step keeps: memory in canonical form, the pc in 0 to 256 (rule R28), a fault record
exactly in FAULTED (rule R33), and that record possible and naming the pc (rule R177, rule R178). -/
structure Inv (s : State) : Prop where
  memWf : s.mem.wf
  pcInRange : s.pc.toNat ≤ memSize
  recordIffFaulted : s.fault.isSome = true ↔ s.runState = .faulted
  recordFits : ∀ r, s.fault = some r → recordPc r = s.pc ∧ RecordPossible r

/-- The pc, the run state and the fault record are unchanged. -/
def SameControl (s t : State) : Prop := t.pc = s.pc ∧ t.runState = s.runState ∧ t.fault = s.fault

/-- Every byte of memory reads as before. -/
def SameMemory (s t : State) : Prop := ∀ a, memRead t.mem a = memRead s.mem a

/-- Every byte of memory outside one address reads as before. -/
def SameMemoryBut (addr : Nat) (s t : State) : Prop := ∀ a, a ≠ addr → memRead t.mem a = memRead s.mem a

/-- Every register outside a list holds what it held before. -/
def SameRegsBut (written : List (Fin 8)) (s t : State) : Prop := ∀ k, k ∉ written → t.reg k = s.reg k

/-- The output log is unchanged. -/
def SameOut (s t : State) : Prop := t.out = s.out

/-- The registers an instruction may write, by rule R22: its first operand for LOAD-IMMEDIATE, POP, ADD and MUL,
and register 7 for PUSH and POP. -/
def writableRegs : Instr → List Byte
  | .halt _ => []
  | .loadImmediate _ r _ => [r]
  | .printRegister _ _ => []
  | .push _ _ => [indexByte spIndex]
  | .pop _ r => [r, indexByte spIndex]
  | .add _ a _ => [a]
  | .mul _ a _ => [a]

/-- A register-index operand of the instruction is 5 or 6 (rule R24). -/
def NamesPlaceholder (i : Instr) : Prop :=
  indexByte interruptMaskIndex ∈ i.registerOperands ∨ indexByte interruptStatusIndex ∈ i.registerOperands

/-- Two states that differ at most in registers 5 and 6. -/
def AgreeButPlaceholders (s t : State) : Prop :=
  (∀ k, k ≠ interruptMaskIndex → k ≠ interruptStatusIndex → s.reg k = t.reg k) ∧
  s.pc = t.pc ∧ s.runState = t.runState ∧ s.fault = t.fault ∧ s.out = t.out ∧ s.mem = t.mem

/-- Registers 5 and 6 hold what they held before. -/
def SamePlaceholders (s t : State) : Prop :=
  t.reg interruptMaskIndex = s.reg interruptMaskIndex ∧ t.reg interruptStatusIndex = s.reg interruptStatusIndex

end Sys2Proof.Machine
end

