-- ==== Sys2Proof/Certificates/Slice0/Obligations.lean ====
section
/-! DEFINITION. The statements for the provers, from the numbered rules of spec/. Where a statement rests on a
decision that the spec marks as its own (spec/92_eei_decisions.md) or on an entry of notes/assumptions, its
docstring says so. -/

open Sys2Proof Sys2Proof.Machine

/-! ### Encoding -/

/-- Rule R81, rule R82: the four fields of an opcode byte, written with division, and the round trip both ways. -/
def Obligations.DescriptorFieldsAndRoundTrip : Prop :=
  (∀ b : Byte, (decodeByte b).count.toNat = b.toNat / 64 ∧ (decodeByte b).alu.toNat = b.toNat / 32 % 2 ∧
    (decodeByte b).pcc.toNat = b.toNat / 16 % 2 ∧ (decodeByte b).id.toNat = b.toNat % 16 ∧
    encodeByte (decodeByte b) = b) ∧
  (∀ d : Descriptor, decodeByte (encodeByte d) = d)

/-- Rule R86 and table VD: the seven canonical opcode bytes with operands, and two with the pc-control bit set,
decode to the instructions they stand for, and the bytes after them are left. -/
def Obligations.CanonicalWordsDecode : Prop :=
  decode [0x01, 0xAA] = .ok (.halt false, [0xAA]) ∧
  decode [0x82, 0x03, 0x08] = .ok (.loadImmediate false 3 8, []) ∧
  decode [0x47, 0x03] = .ok (.printRegister false 3, []) ∧
  decode [0x45, 0x00] = .ok (.push false 0, []) ∧
  decode [0x46, 0x01] = .ok (.pop false 1, []) ∧
  decode [0xA0, 0x00, 0x01] = .ok (.add false 0 1, []) ∧
  decode [0xA2, 0x00, 0x01] = .ok (.mul false 0 1, []) ∧
  decode [0x92, 0x04, 0x00] = .ok (.loadImmediate true 4 0, []) ∧
  decode [0xB2, 0x00, 0x02, 0x57] = .ok (.mul true 0 2, [0x57])

/-- Rule R88, rule R90: `b AND 0xEF` selects, and the counts over the 256 bytes are 14, 88, 112 and 42.
That a byte with another operand count selects nothing is the spec's decision D5, D6 (log entry 8). -/
def Obligations.OpcodeMapByMaskAndCounts : Prop :=
  (∀ b : Byte,
    (selects b .halt ↔ b &&& 0xEF = 0x01) ∧ (selects b .loadImmediate ↔ b &&& 0xEF = 0x82) ∧
    (selects b .printRegister ↔ b &&& 0xEF = 0x47) ∧ (selects b .push ↔ b &&& 0xEF = 0x45) ∧
    (selects b .pop ↔ b &&& 0xEF = 0x46) ∧ (selects b .add ↔ b &&& 0xEF = 0xA0) ∧
    (selects b .mul ↔ b &&& 0xEF = 0xA2)) ∧
  (∀ answer ∈ [(Except.error Reject.dispatchError, 88), (.error .unsupportedOperation, 112),
      (.error .illegalEncoding, 42)],
    (List.range 256).countP (fun n => select (decodeByte (BitVec.ofNat 8 n)) = answer.1) = answer.2) ∧
  (List.range 256).countP (fun n => (select (decodeByte (BitVec.ofNat 8 n))).toOption.isSome) = 14

/-- Rule R80, rule R82, rule R84, rule R88: decoding and encoding agree, for every instruction, every operand byte
and either pc-control bit, in both directions: what decodes to `i` is exactly the encoding of `i`. -/
def Obligations.DecodeAndEncodeAgree : Prop :=
  ∀ (bs rest : List Byte) (i : Instr), decode bs = .ok (i, rest) ↔ bs = encode i ++ rest

/-! ### Instructions: result, completion and frame -/

/-- Rule R120: HALT completes in every state; the run state becomes HALTED and everything else is unchanged, the
pc included. -/
def Obligations.HaltStopsInPlace : Prop :=
  ∀ (p : Bool) (s : State), ∃ t, exec (.halt p) s = .next t ∧
    t.runState = .halted ∧ t.pc = s.pc ∧ t.fault = s.fault ∧ SameRegsBut [] s t ∧ SameOut s t ∧ SameMemory s t

/-- Rule R150: LOAD-IMMEDIATE completes for every register and every literal; the target holds the literal and
everything else is unchanged. -/
def Obligations.LoadImmediateSetsTargetOnly : Prop :=
  ∀ (p : Bool) (i : Fin 8) (v : Byte) (s : State), ∃ t, exec (.loadImmediate p (indexByte i) v) s = .next t ∧
    t.reg i = v ∧ SameRegsBut [i] s t ∧ SameControl s t ∧ SameOut s t ∧ SameMemory s t

/-- Rule R151: PRINT-REGISTER completes for every register; its value is appended to the output log and everything
else is unchanged. -/
def Obligations.PrintRegisterAppendsValue : Prop :=
  ∀ (p : Bool) (i : Fin 8) (s : State), ∃ t, exec (.printRegister p (indexByte i)) s = .next t ∧
    t.out = s.out ++ [s.reg i] ∧ SameRegsBut [] s t ∧ SameControl s t ∧ SameMemory s t

/-- Rule R160, rule R165: PUSH completes for every register whenever the stack pointer is not 0. The pointer is one
lower; the byte at the new pointer is the register's value, or the new pointer itself for register 7 (the
order of the two actions is the spec's decision D11, log entry 12); every other byte, every other register,
the output log and the control state are unchanged. -/
def Obligations.PushStoresBelowPointer : Prop :=
  ∀ (p : Bool) (i : Fin 8) (s : State), s.reg spIndex ≠ 0 → ∃ t, exec (.push p (indexByte i)) s = .next t ∧
    t.reg spIndex = s.reg spIndex - 1 ∧ SameRegsBut [spIndex] s t ∧
    memRead t.mem (stackAddress (s.reg spIndex - 1)) =
      some (if i = spIndex then s.reg spIndex - 1 else s.reg i) ∧
    SameMemoryBut (stackAddress (s.reg spIndex - 1)) s t ∧ SameControl s t ∧ SameOut s t

/-- Rule R161: POP of a register other than 7 completes whenever the stack pointer is not 255. The register holds
the byte at the old pointer, the pointer is one higher, and everything else is unchanged, memory included. -/
def Obligations.PopLoadsThenRaisesPointer : Prop :=
  ∀ (p : Bool) (i : Fin 8) (s : State), i ≠ spIndex → s.reg spIndex ≠ 255 →
    ∃ t, exec (.pop p (indexByte i)) s = .next t ∧
      memRead s.mem (stackAddress (s.reg spIndex)) = some (t.reg i) ∧ t.reg spIndex = s.reg spIndex + 1 ∧
      SameRegsBut [i, spIndex] s t ∧ SameControl s t ∧ SameOut s t ∧ SameMemory s t

/-- Rule R165: POP of register 7 completes whenever the byte at the stack pointer is not 255, and leaves the pointer
one above that byte; everything else is unchanged (the order of load and increment is the spec's decision
D11, log entry 12). -/
def Obligations.PopOfStackPointerEndsAboveLoadedByte : Prop :=
  ∀ (p : Bool) (v : Byte) (s : State), memRead s.mem (stackAddress (s.reg spIndex)) = some v → v ≠ 255 →
    ∃ t, exec (.pop p (indexByte spIndex)) s = .next t ∧ t.reg spIndex = v + 1 ∧
      SameRegsBut [spIndex] s t ∧ SameControl s t ∧ SameOut s t ∧ SameMemory s t

/-- Rule R141: ADD completes for all registers, equal ones too, whenever the sum is at most 255; the first operand
holds the exact sum and everything else is unchanged. -/
def Obligations.AddWritesExactSum : Prop :=
  ∀ (p : Bool) (i j : Fin 8) (s : State), (s.reg i).toNat + (s.reg j).toNat ≤ 255 →
    ∃ t, exec (.add p (indexByte i) (indexByte j)) s = .next t ∧
      (t.reg i).toNat = (s.reg i).toNat + (s.reg j).toNat ∧
      SameRegsBut [i] s t ∧ SameControl s t ∧ SameOut s t ∧ SameMemory s t

/-- Rule R142: MUL completes for all registers, equal ones too, whenever the product is at most 255; the first
operand holds the exact product and everything else is unchanged. -/
def Obligations.MulWritesExactProduct : Prop :=
  ∀ (p : Bool) (i j : Fin 8) (s : State), (s.reg i).toNat * (s.reg j).toNat ≤ 255 →
    ∃ t, exec (.mul p (indexByte i) (indexByte j)) s = .next t ∧
      (t.reg i).toNat = (s.reg i).toNat * (s.reg j).toNat ∧
      SameRegsBut [i] s t ∧ SameControl s t ∧ SameOut s t ∧ SameMemory s t

/-- Rule R144: ADD and MUL are commutative on the register pair and mutate only the first operand register. `t` and
`u` are the states after the operation and the pc's advance with the operands in the two orders: one faults
exactly when the other does; when they do not, the two first operands receive the same value, nothing else
changes, and the pc has advanced by 3. -/
def Obligations.AluCommutesAndWritesFirstOnly : Prop :=
  ∀ mk : Bool → Byte → Byte → Instr, mk = Instr.add ∨ mk = Instr.mul →
  ∀ (p q : Bool) (i j : Fin 8) (s t u : State), s.runState = .running →
    finishStep 2 (exec (mk p (indexByte i) (indexByte j)) s) = .next t →
    finishStep 2 (exec (mk q (indexByte j) (indexByte i)) s) = .next u →
    (t.runState = .faulted ↔ u.runState = .faulted) ∧
    (t.runState ≠ .faulted → t.reg i = u.reg j ∧ SameRegsBut [i] s t ∧ SameMemory s t ∧ SameOut s t ∧
      t.pc.toNat = (s.pc.toNat + 3) % 512)

/-- Rule R163, the source's property: PUSH of one register followed at once by POP of another, both in 0 to 6, puts
the first one's value into the second and restores the stack pointer, all other registers unchanged; the byte
stays in memory below the pointer. -/
def Obligations.PushThenPopRestoresPointer : Prop :=
  ∀ (p q : Bool) (i j : Fin 8) (s : State), i ≠ spIndex → j ≠ spIndex → s.reg spIndex ≠ 0 →
    ∃ t u, exec (.push p (indexByte i)) s = .next t ∧ exec (.pop q (indexByte j)) t = .next u ∧
      u.reg j = s.reg i ∧ u.reg spIndex = s.reg spIndex ∧ SameRegsBut [j] s u ∧
      memRead u.mem (stackAddress (s.reg spIndex - 1)) = some (s.reg i) ∧
      SameMemoryBut (stackAddress (s.reg spIndex - 1)) s u ∧ SameControl s u ∧ SameOut s u

/-! ### Instructions: where they fault -/

/-- Rule R176: ADD and MUL of two registers whose exact result exceeds 255 take the fault ArithmeticOverflow with
the opcode byte, the pc and that result, and change nothing else. That the overflow is a fault is the spec's
decision D8 (log entry 10). -/
def Obligations.AluOverflowTakesFault : Prop :=
  ∀ (p : Bool) (i j : Fin 8) (s : State),
    (255 < (s.reg i).toNat + (s.reg j).toNat → exec (.add p (indexByte i) (indexByte j)) s =
      .next (takeFault (.arithmeticOverflow (if p then 0xB0 else 0xA0) s.pc
        ((s.reg i).toNat + (s.reg j).toNat)) s)) ∧
    (255 < (s.reg i).toNat * (s.reg j).toNat → exec (.mul p (indexByte i) (indexByte j)) s =
      .next (takeFault (.arithmeticOverflow (if p then 0xB2 else 0xA2) s.pc
        ((s.reg i).toNat * (s.reg j).toNat)) s))

/-- Rule R179: PUSH with the stack pointer at 0, and POP whose pointer after the load is 255, take the fault
StackPointerOutOfRange and change nothing else. That leaving 0 to 255 is a fault is the spec's decision D9 (log
entry 11). -/
def Obligations.StackPointerOutOfRangeTakesFault : Prop :=
  ∀ (p : Bool) (i : Fin 8) (s : State),
    (s.reg spIndex = 0 → exec (.push p (indexByte i)) s =
      .next (takeFault (.stackPointerOutOfRange (if p then 0x55 else 0x45) s.pc 0) s)) ∧
    (i ≠ spIndex → s.reg spIndex = 255 → exec (.pop p (indexByte i)) s =
      .next (takeFault (.stackPointerOutOfRange (if p then 0x56 else 0x46) s.pc 255) s)) ∧
    (memRead s.mem (stackAddress (s.reg spIndex)) = some 255 → exec (.pop p (indexByte spIndex)) s =
      .next (takeFault (.stackPointerOutOfRange (if p then 0x56 else 0x46) s.pc 255) s))

/-- Rule R174, rule R180: an instruction with a register-index operand of 8 or more takes the fault
RegisterIndexOutOfRange in every state, whatever else could fault, operand 0 reported before operand 1. That
such an index is a fault, and its place in the order, are the spec's decisions D7 and D12 (log entries 9, 13). -/
def Obligations.IllegalRegisterIndexTakesFaultFirst : Prop :=
  ∀ (i : Instr) (s : State) (b : Byte), 8 ≤ b.toNat →
    (i.registerOperands.head? = some b →
      exec i s = .next (takeFault (.registerIndexOutOfRange 0 b i.opcodeByte s.pc) s)) ∧
    (∀ k : Fin 8, i.registerOperands = [indexByte k, b] →
      exec i s = .next (takeFault (.registerIndexOutOfRange 1 b i.opcodeByte s.pc) s))

/-- Rule R118, rule R177: the execute stage of every instruction, with every operand byte and in every state, answers a
next state, and that state differs from the old one by an effect or by a fault taken whole. No operand ends a
run without a state. -/
def Obligations.EveryInstructionAnswersNextState : Prop :=
  ∀ (i : Instr) (s : State), ∃ t, exec i s = .next t ∧ t.pc = s.pc ∧
    (t.fault = s.fault ∨ ∃ r, t = takeFault r s ∧ recordPc r = s.pc)

/-- Rule R87: the pc-control bit has no effect. A byte with bit 4 inverted selects the same with the same operand
count; bytes that decode to `i` then decode to `i` with that bit inverted; and the two have the same outcome,
but for the opcode byte that a fault record names. -/
def Obligations.PcControlBitHasNoEffect : Prop :=
  (∀ b : Byte, select (decodeByte (b ^^^ 0x10)) = select (decodeByte b) ∧
    (decodeByte (b ^^^ 0x10)).count = (decodeByte b).count) ∧
  (∀ (b : Byte) (tl rest : List Byte) (i : Instr), decode (b :: tl) = .ok (i, rest) →
    decode ((b ^^^ 0x10) :: tl) = .ok (i.withPcc (!i.pcc), rest)) ∧
  (∀ (i : Instr) (q : Bool) (s t : State), s.fault = none → exec i s = .next t →
    exec (i.withPcc q) s = .next { t with fault := t.fault.map (recordWithOpcode (i.withPcc q).opcodeByte) })

/-! ### The step -/

/-- Rule R110, rule R119: when the bytes at the pc decode to `i`, a step of a running machine is `exec i`, followed, if
the machine is then still running, by the pc moving past the instruction's bytes. -/
def Obligations.StepRunsDecodedInstruction : Prop :=
  ∀ (s : State) (i : Instr) (rest : List Byte), s.runState = .running → decode (codeAtPc s) = .ok (i, rest) →
    step s = match exec i s with
      | .next t => .next (if t.runState = .running
          then { t with pc := s.pc + BitVec.ofNat 9 (encode i).length } else t)
      | .fault f => .fault f
      | .refused r => .refused r

/-- Rule R80: an instruction is one opcode byte at the pc and its operand bytes at consecutive ascending addresses, the
`k`-th at `pc + 1 + k`; its length is the opcode byte's operand count and one, 1 to 4. -/
def Obligations.InstructionBytesLieAtPc : Prop :=
  ∀ (s : State) (i : Instr) (rest : List Byte), decode (codeAtPc s) = .ok (i, rest) →
    memRead s.mem s.pc.toNat = some i.opcodeByte ∧
    (∀ (k : Nat) (b : Byte), i.operands[k]? = some b → memRead s.mem (s.pc.toNat + 1 + k) = some b) ∧
    (encode i).length = i.opcodeByte.toNat / 64 + 1 ∧ 1 ≤ (encode i).length ∧ (encode i).length ≤ 4

/-- Rule R111: the opcode fetch reads one byte from memory at the pc; at 256 and above the step raises OutOfBounds with
the pc as address. -/
def Obligations.OpcodeFetchReadsAtPcOrFaults : Prop :=
  ∀ s : State, s.runState = .running →
    (s.pc.toNat < 256 → ∃ ir, memRead s.mem s.pc.toNat = some ir ∧ step s = afterFetch ir s) ∧
    (256 ≤ s.pc.toNat → ∃ t, step s = .next t ∧ t.runState = .faulted ∧
      t.fault = some (.outOfBounds s.pc.toNat s.pc))

/-- Rule R113, rule R180: an opcode byte that is not HALT's and whose operand bytes reach past the end of memory raises
OutOfBounds(256), whatever the byte would select. -/
def Obligations.OperandFetchPastEndFaultsFirst : Prop :=
  ∀ (s : State) (ir : Byte), s.runState = .running → memRead s.mem s.pc.toNat = some ir →
    ir &&& 0xEF ≠ 0x01 → 256 ≤ s.pc.toNat + ir.toNat / 64 →
    step s = .next (takeFault (.outOfBounds 256 s.pc) s)

/-- Rule R146, rule R171, rule R172: with its operand bytes inside memory, an opcode byte with the ALU flag set and an
identity other than 0 and 2 takes UnsupportedOperation, and one with the flag clear and an identity outside 1, 2,
5, 6, 7 takes DispatchError, whatever its other bits and the operand bytes; the record holds the opcode byte and
the pc, and no register is written (rule R177). There are 112 bytes of the first kind. That identity 1 with the
ALU flag set is among them, and not HALT, is the spec's decision D6 (log entry 8); that a fault leaves the registers,
and what its record holds, are the spec's decision D13 (log entry 2). -/
def Obligations.UnknownIdentityFaultsAtDispatch : Prop :=
  (∀ (s : State) (ir : Byte), s.runState = .running → memRead s.mem s.pc.toNat = some ir →
    s.pc.toNat + ir.toNat / 64 < 256 →
    (ir.toNat / 32 % 2 = 1 → ir.toNat % 16 ∉ [0, 2] → ∃ t, step s = .next t ∧ t.runState = .faulted ∧
      t.fault = some (.unsupportedOperation ir s.pc) ∧ SameRegsBut [] s t) ∧
    (ir.toNat / 32 % 2 = 0 → ir.toNat % 16 ∉ [1, 2, 5, 6, 7] → ∃ t, step s = .next t ∧ t.runState = .faulted ∧
      t.fault = some (.dispatchError ir s.pc) ∧ SameRegsBut [] s t)) ∧
  ((List.range 256).filter fun n => n / 32 % 2 = 1 ∧ n % 16 ∉ [0, 2]).length = 112

/-- Rule R173: with its operand bytes inside memory, an opcode byte that has an instruction's ALU flag and identity and
another operand count takes IllegalEncoding. The fault kind is the spec's decision D5, D6 (log entry 8). -/
def Obligations.WrongOperandCountFaultsAtDispatch : Prop :=
  ∀ (s : State) (ir : Byte) (op : Operation), s.runState = .running → memRead s.mem s.pc.toNat = some ir →
    s.pc.toNat + ir.toNat / 64 < 256 →
    (decodeByte ir).alu = op.row.alu → (decodeByte ir).id = op.row.id → (decodeByte ir).count ≠ op.row.count →
    step s = .next (takeFault (.illegalEncoding ir s.pc) s)

/-- Rule R114, rule R120: a step halts exactly on the opcode bytes 0x01 and 0x11, changing the run state and nothing
else, at any pc, 255 included. That no other byte with HALT's identity halts is the spec's decision D6 (log
entry 8). -/
def Obligations.HaltsExactlyOnHaltBytes : Prop :=
  ∀ (s : State) (ir : Byte), s.runState = .running → memRead s.mem s.pc.toNat = some ir →
    ((ir = 0x01 ∨ ir = 0x11) → step s = .next { s with runState := .halted }) ∧
    (∀ t, step s = .next t → t.runState = .halted → ir = 0x01 ∨ ir = 0x11)

/-- Rule R31, rule R122 and the note under spec/93: a running state has a successor, and the two terminal states have
none (how the model says so is log entry 3). -/
def Obligations.SuccessorExactlyWhenRunning : Prop :=
  ∀ s : State, ((∃ t, step s = .next t) ↔ s.runState = .running) ∧
    (s.runState = .halted → step s = .fault .noStepFromHalted) ∧
    (s.runState = .faulted → step s = .fault .noStepFromFaulted)

/-- Rule R177: a step that ends faulted changed the run state and the fault record and nothing else, and the record
names the pc. That faults are precise is the spec's decision D13 (log entry 2). -/
def Obligations.FaultingStepChangesOnlyRecord : Prop :=
  ∀ s t : State, step s = .next t → t.runState = .faulted →
    ∃ r, t = { s with runState := .faulted, fault := some r } ∧ recordPc r = s.pc

/-- Rule R29, rule R119: the pc is written by the engine alone. No instruction's execute stage changes it; a step that
leaves the machine running has added the fetched byte's operand count and one, to at most 256; a step that
halted or faulted has left it. -/
def Obligations.PcMovesPastInstructionOnly : Prop :=
  (∀ (i : Instr) (s t : State), exec i s = .next t → t.pc = s.pc) ∧
  (∀ s t : State, step s = .next t →
    (t.runState = .running → ∃ ir, memRead s.mem s.pc.toNat = some ir ∧
      t.pc.toNat = s.pc.toNat + ir.toNat / 64 + 1 ∧ t.pc.toNat ≤ 256) ∧
    (t.runState ≠ .running → t.pc = s.pc))

/-- Rule R62, rule R209: a byte pushed into the cell the next step fetches is the opcode byte it fetches. -/
def Obligations.PushedByteIsFetchedNext : Prop :=
  ∀ (s t : State) (p : Bool) (i : Fin 8) (rest : List Byte), s.runState = .running →
    decode (codeAtPc s) = .ok (.push p (indexByte i), rest) → s.reg spIndex ≠ 0 →
    stackAddress (s.reg spIndex - 1) = s.pc.toNat + 2 → step s = .next t →
    fetchOpcode t = some (if i = spIndex then s.reg spIndex - 1 else s.reg i)

/-! ### The whole machine -/

/-- Rule R22: a step changes a register only if the instruction at the pc may write it: its first operand for
LOAD-IMMEDIATE, POP, ADD and MUL, register 7 for PUSH and POP. -/
def Obligations.StepWritesOnlyNamedRegisters : Prop :=
  ∀ (s t : State) (k : Fin 8), step s = .next t → t.reg k ≠ s.reg k →
    ∃ i rest, decode (codeAtPc s) = .ok (i, rest) ∧ indexByte k ∈ writableRegs i

/-- Rule R54: only a PUSH at the pc changes memory, and only the byte below the old stack pointer. -/
def Obligations.OnlyPushWritesMemory : Prop :=
  ∀ s t : State, step s = .next t → t.mem = s.mem ∨
    ∃ p i rest, decode (codeAtPc s) = .ok (.push p (indexByte i), rest) ∧ s.reg spIndex ≠ 0 ∧
      SameMemoryBut (stackAddress (s.reg spIndex - 1)) s t

/-- Rule R32, rule R67: only a PRINT-REGISTER at the pc changes the output log, and it appends its register's value;
the log is never read back or shortened. -/
def Obligations.OnlyPrintRegisterEmits : Prop :=
  ∀ s t : State, step s = .next t → t.out = s.out ∨
    ∃ p i rest, decode (codeAtPc s) = .ok (.printRegister p (indexByte i), rest) ∧ t.out = s.out ++ [s.reg i]

/-- Rule R24: registers 5 and 6 are inert. From two states that differ at most in them, if the instruction at the pc
does not name either as an operand, the steps agree everywhere else and neither register changes. -/
def Obligations.PlaceholderRegistersAreInert : Prop :=
  ∀ s u s' : State, AgreeButPlaceholders s u →
    (∀ i rest, decode (codeAtPc s) = .ok (i, rest) → ¬ NamesPlaceholder i) → step s = .next s' →
    ∃ u', step u = .next u' ∧ AgreeButPlaceholders s' u' ∧ SamePlaceholders s s' ∧ SamePlaceholders u u'

/-- Every step keeps the invariant: memory in canonical form, the pc in 0 to 256 (rule R28, the width is the spec's
decision D3), a fault record exactly in FAULTED (rule R33), naming the pc and with fields that its kind allows
(rule R177, rule R178, the spec's decision D13). -/
def Obligations.EveryStepKeepsInvariant : Prop := ∀ s t : State, Inv s → step s = .next t → Inv t

/-- The state after reset meets the invariant, whatever `SP_RESET` is, and so does the state after any loading. -/
def Obligations.ResetAndLoadedStatesMeetInvariant : Prop :=
  (∀ sp : Byte, Inv (State.resetWith sp)) ∧ (∀ (p : List Nat) (t : State), boot p = .next t → Inv t)

/-- Rule R122: every run ends. From any running state with the pc at most 256, whatever memory and the registers hold,
at most (256 - pc) / 2 + 1 steps lead to a halted or faulted state; from pc 0 that is 129. -/
def Obligations.EveryRunEndsWithin129Steps : Prop :=
  ∀ s : State, s.runState = .running → s.pc.toNat ≤ 256 →
    ∃ (k : Nat) (t : State), k ≤ (256 - s.pc.toNat) / 2 + 1 ∧ Host.Core.run Sys2Proof.core k s = .next t ∧ Ended t

/-! ### Memory -/

/-- Rule R52: a read in 0 to 255 returns what the cell holds, the listed byte or 0x00 for a cell nothing lists; a read at
256 or above returns no value. -/
def Obligations.ReadReturnsCellContents : Prop :=
  ∀ (m : Memory) (a : Nat), m.wf →
    (∀ v, (a, v) ∈ m.cells → memRead m a = some v) ∧
    (a < 256 → (∀ v, (a, v) ∉ m.cells) → memRead m a = some 0x00) ∧
    (256 ≤ a → memRead m a = none)

/-- Rule R53: a write in 0 to 255 succeeds, sets that cell and changes no other; at 256 or above it fails. -/
def Obligations.WriteSetsOneCellOnly : Prop :=
  ∀ (m : Memory) (a : Nat) (v : Byte),
    (a < 256 → ∃ m', memWrite m a v = some m' ∧ memRead m' a = some v ∧
      ∀ b, b ≠ a → memRead m' b = memRead m b) ∧
    (256 ≤ a → memWrite m a v = none)

/-- Rule R37, rule R50: memory is its 256 cells. Two memories in canonical form that read alike at every address are
equal (the canonical form is the model's own, log entry 15). -/
def Obligations.MemoriesThatReadAlikeAreEqual : Prop :=
  ∀ m n : Memory, m.wf → n.wf → (∀ a, memRead m a = memRead n a) → m = n

/-! ### Reset, loading, output -/

/-- Rule R39, rule R200: the state after reset, for every value of the parameter `SP_RESET` (decision D1, log entry 4);
registers 0 to 6 at 0x00 are the spec's decision D2 (log entry 5). Reset leads there from every state. -/
def Obligations.ResetStateIsAsListed : Prop :=
  (∀ sp : Byte, (State.resetWith sp).reg spIndex = sp ∧
    (∀ k, k ≠ spIndex → (State.resetWith sp).reg k = 0x00) ∧
    (State.resetWith sp).pc = 0 ∧ (State.resetWith sp).runState = .running ∧ (State.resetWith sp).fault = none ∧
    (State.resetWith sp).out = [] ∧ ∀ a, a < 256 → memRead (State.resetWith sp).mem a = some 0x00) ∧
  State.reset = State.resetWith 0xF4 ∧ ∀ s : State, resetMachine s = State.reset

/-- Rule R204: the loader's output contract. A list of at most 256 values, each at most 255, is found at addresses 0
upward in a memory otherwise zero, and nothing but memory differs from reset; any other list is refused
(decision D19, log entry 16). -/
def Obligations.LoaderFillsMemoryFromZero : Prop :=
  ∀ p : List Nat,
    (p.length ≤ 256 → (∀ v ∈ p, v ≤ 255) → ∃ t, boot p = .next t ∧
      (∀ (a v : Nat), p[a]? = some v → memRead t.mem a = some (BitVec.ofNat 8 v)) ∧
      (∀ a, p.length ≤ a → a < 256 → memRead t.mem a = some 0x00) ∧
      SameRegsBut [] State.reset t ∧ SameControl State.reset t ∧ SameOut State.reset t) ∧
    ((256 < p.length ∨ ∃ v ∈ p, 255 < v) → boot p = .refused .programOutsideLoaderContract)

/-- Rule R152: an output line is the value's digits in base ten, as Lean's own library writes them, and one line feed
(the text is the spec's decision D14, log entry 14). -/
def Obligations.OutputLineIsDecimalWithLineFeed : Prop :=
  ∀ v : Byte, outputLine v = (Nat.toDigits 10 v.toNat).map (fun c => BitVec.ofNat 8 c.toNat) ++ [0x0A]

/-- The model's own interface (log entry 16): with a table word placed, the next step decodes exactly the instruction the
decoder reads from that word, from any state; the registers and the output log are as before. -/
def Obligations.PlacedWordIsFetchedNext : Prop :=
  ∀ (s : State) (nbits w : Nat) (i : Instr), decodeTableWord nbits w = some i →
    (s.withFetchWord nbits w).runState = .running ∧
    (∃ rest, decode (codeAtPc (s.withFetchWord nbits w)) = .ok (i, rest)) ∧
    SameRegsBut [] s (s.withFetchWord nbits w) ∧ SameOut s (s.withFetchWord nbits w)
end

