-- ==== Sys2Proof/Laws/Decode.lean ====
section
/-! SUPPORT. The small laws of the encoding: an instruction's own descriptor selects its own operation with its own
operand count, and what a successful decoding says about its bytes (rule R82, rule R88). -/

namespace Sys2Proof

theorem encodeByte_decodeByte (b : Byte) : encodeByte (decodeByte b) = b := by
  revert b; decide

theorem decodeByte_encodeByte_row (op : Operation) (p : Bool) :
    decodeByte (encodeByte ⟨op.row.count, op.row.alu, p, op.row.id⟩) = ⟨op.row.count, op.row.alu, p, op.row.id⟩ := by
  revert op p; intro op; cases op <;> decide

/-- The opcode byte of an instruction decodes to the instruction's descriptor. -/
@[simp] theorem decodeByte_opcodeByte (i : Instr) : decodeByte i.opcodeByte = i.descriptor :=
  decodeByte_encodeByte_row i.operation i.pcc

/-- An instruction's descriptor selects its operation. -/
@[simp] theorem select_descriptor (i : Instr) : select i.descriptor = .ok i.operation := by
  cases i <;> rfl

/-- An instruction has exactly its row's number of operand bytes. -/
theorem length_operands (i : Instr) : i.operands.length = i.descriptor.count.toNat := by
  cases i <;> rfl

theorem length_encode (i : Instr) : (encode i).length = i.descriptor.count.toNat + 1 := by
  simp [encode, length_operands]

/-- Selection reads the pair `(alu, id)` and the count, and what it finds is a row of the table. -/
theorem select_eq_ok {d : Descriptor} {op : Operation} (h : select d = .ok op) :
    d = ⟨op.row.count, op.row.alu, d.pcc, op.row.id⟩ := by
  obtain ⟨c, a, p, n⟩ := d
  revert h
  revert c a p n op
  intro op; cases op <;> decide

theorem toInstr_operands (i : Instr) : i.operation.toInstr i.pcc i.operands = i := by
  cases i <;> rfl

@[simp] theorem operation_toInstr (op : Operation) (p : Bool) (bs : List Byte) :
    (op.toInstr p bs).operation = op := by
  cases op <;> rfl

@[simp] theorem pcc_toInstr (op : Operation) (p : Bool) (bs : List Byte) : (op.toInstr p bs).pcc = p := by
  cases op <;> rfl

/-- With the row's number of operand bytes, the instruction has exactly those bytes. -/
theorem operands_toInstr {op : Operation} (p : Bool) {bs : List Byte} (h : bs.length = op.row.count.toNat) :
    (op.toInstr p bs).operands = bs := by
  cases op
  case halt => exact (List.length_eq_zero_iff.mp h).symm
  case printRegister | push | pop =>
    obtain ⟨x, rfl⟩ := List.length_eq_one_iff.mp h
    rfl
  case loadImmediate | add | mul =>
    obtain ⟨x, y, rfl⟩ := List.length_eq_two.mp h
    rfl

/-- What a successful decoding is made of: an opcode byte that selects, then its operand bytes, then the rest. -/
theorem decode_eq_ok {bs : List Byte} {i : Instr} {rest : List Byte} (h : decode bs = .ok (i, rest)) :
    ∃ b tl op, bs = b :: tl ∧ select (decodeByte b) = .ok op ∧ (decodeByte b).count.toNat ≤ tl.length ∧
      i = op.toInstr (decodeByte b).pcc (tl.take (decodeByte b).count.toNat) ∧
      rest = tl.drop (decodeByte b).count.toNat := by
  cases bs with
  | nil => simp [decode] at h
  | cons b tl =>
    simp only [decode] at h
    split at h
    · simp at h
    · rename_i hlen
      split at h
      · simp at h
      · rename_i op hop
        obtain ⟨rfl, rfl⟩ := Prod.mk.inj (Except.ok.inj h)
        exact ⟨b, tl, op, rfl, hop, Nat.not_lt.mp hlen, rfl, rfl⟩

/-- The converse: enough bytes behind an opcode byte that selects decode to that instruction. -/
theorem decode_of_select {b : Byte} {tl : List Byte} {op : Operation} (hs : select (decodeByte b) = .ok op)
    (hl : (decodeByte b).count.toNat ≤ tl.length) :
    decode (b :: tl) = .ok (op.toInstr (decodeByte b).pcc (tl.take (decodeByte b).count.toNat),
      tl.drop (decodeByte b).count.toNat) := by
  simp [decode, Nat.not_lt.mpr hl, hs]

/-- The halt test of stage 3 is selection's own answer for HALT (rule R114). -/
theorem isHalt_iff_select (d : Descriptor) : d.isHalt = true ↔ select d = .ok .halt := by
  obtain ⟨c, a, p, n⟩ := d
  revert c a p n
  decide

theorem count_of_isHalt {d : Descriptor} (h : d.isHalt = true) : d.count = 0 := by
  simp [Descriptor.isHalt] at h
  exact h.2

/-- Every operation but HALT has an operand. -/
theorem count_pos_of_select {d : Descriptor} {op : Operation} (h : select d = .ok op) (hn : op ≠ .halt) :
    1 ≤ d.count.toNat := by
  rw [select_eq_ok h]
  cases op <;> first | exact absurd rfl hn | simp [Operation.row]

end Sys2Proof
end

