-- ==== Sys2Proof/Laws/Memory.lean ====
section
/-! SUPPORT. The laws of memory: a read after a write, a write elsewhere, and that every memory operation keeps
the canonical form (rule R50, rule R52, rule R53). -/

namespace Sys2Proof.Machine

/-! ### Lookup -/

theorem lookupCell_insertCell (a b : Nat) (v : Byte) (cs : List Host.Cell) (h : ∀ c ∈ cs, c.1 ≠ a) :
    lookupCell (insertCell a v cs) b = if b = a then v else lookupCell cs b := by
  induction cs with
  | nil => simp [insertCell, lookupCell, eq_comm]
  | cons c cs ih =>
    have hc : c.1 ≠ a := h c (by simp)
    have ih := ih fun d hd => h d (by simp [hd])
    unfold insertCell
    split
    · simp [lookupCell, eq_comm]
    · by_cases hb : c.1 = b
      · have : b ≠ a := hb ▸ hc
        simp [lookupCell, hb, this]
      · simp [lookupCell, hb, ih]

theorem lookupCell_filter (a b : Nat) (cs : List Host.Cell) :
    lookupCell (cs.filter (fun c => c.1 != a)) b = if b = a then Memory.unlisted else lookupCell cs b := by
  induction cs with
  | nil => simp [lookupCell]
  | cons c cs ih =>
    by_cases hc : c.1 = a
    · by_cases hb : b = a
      · simp_all
      · have : c.1 ≠ b := fun e => hb (e ▸ hc)
        simp_all [lookupCell]
    · by_cases hb : c.1 = b
      · have : b ≠ a := hb ▸ hc
        simp_all [lookupCell]
      · simp_all [lookupCell]

/-- Setting a cell changes what that address reads as and nothing else. -/
theorem lookupCell_setCell (m : Memory) (a b : Nat) (v : Byte) :
    lookupCell (setCell m a v).cells b = if b = a then v else lookupCell m.cells b := by
  unfold setCell
  by_cases hv : v = Memory.unlisted
  · simp [hv, lookupCell_filter]
  · simp only [hv, if_false]
    rw [lookupCell_insertCell _ _ _ _ (by simp), lookupCell_filter]
    split <;> rfl

/-! ### Reads and writes -/

theorem memRead_of_lt (m : Memory) {a : Nat} (h : a < memSize) : memRead m a = some (lookupCell m.cells a) := by
  simp [memRead, h]

theorem memRead_of_ge (m : Memory) {a : Nat} (h : memSize ≤ a) : memRead m a = none := by
  simp [memRead, Nat.not_lt.mpr h]

theorem memRead_eq_none {m : Memory} {a : Nat} : memRead m a = none ↔ memSize ≤ a := by
  simp [memRead]

theorem memRead_eq_some_lt {m : Memory} {a : Nat} {v : Byte} (h : memRead m a = some v) : a < memSize := by
  by_contra hc
  simp [memRead, hc] at h

theorem memRead_setCell (m : Memory) {a : Nat} (b : Nat) (v : Byte) (h : a < memSize) :
    memRead (setCell m a v) b = if b = a then some v else memRead m b := by
  simp only [memRead, lookupCell_setCell]
  by_cases hb : b = a
  · simp [hb, h]
  · simp [hb]

theorem memWrite_eq_some {m m' : Memory} {a : Nat} {v : Byte} (h : memWrite m a v = some m') :
    a < memSize ∧ m' = setCell m a v := by
  unfold memWrite at h
  split at h
  · exact ⟨‹_›, by simpa using h.symm⟩
  · simp at h

theorem memWrite_of_lt (m : Memory) {a : Nat} (v : Byte) (h : a < memSize) :
    memWrite m a v = some (setCell m a v) := by
  simp [memWrite, h]

/-- Consecutive bytes stored from address `a`: an address among them reads its byte, every other one as before. -/
theorem memRead_storeBytes (bs : List Byte) (m : Memory) (a : Nat) {b : Nat} (hb : b < memSize) :
    memRead (storeBytes m a bs) b =
      if b < a then memRead m b else (bs[b - a]?).orElse fun _ => memRead m b := by
  induction bs generalizing m a with
  | nil => simp [storeBytes]
  | cons v vs ih =>
    have hw : memRead ((memWrite m a v).getD m) b = if b = a then some v else memRead m b := by
      by_cases ha : a < memSize
      · rw [memWrite_of_lt m v ha, Option.getD_some, memRead_setCell _ _ _ ha]
      · rw [show memWrite m a v = none from if_neg ha, Option.getD_none, if_neg (by omega)]
    rw [storeBytes, ih, hw]
    rcases Nat.lt_trichotomy b a with h | rfl | h
    · rw [if_pos (by omega), if_neg (by omega), if_pos h]
    · simp
    · rw [if_neg (by omega), if_neg (by omega), if_neg (by omega), show b - a = b - (a + 1) + 1 by omega,
        List.getElem?_cons_succ]

/-- A program stored from address `a`: an address among its values reads its value, every other one as before. -/
theorem memRead_storeProgram (p : List Nat) (m : Memory) (a : Nat) {b : Nat}
    (hp : a + p.length ≤ memSize) :
    memRead (storeProgram m a p) b =
      if b < a then memRead m b else ((p[b - a]?).map (BitVec.ofNat 8)).orElse fun _ => memRead m b := by
  induction p generalizing m a with
  | nil => simp [storeProgram]
  | cons v vs ih =>
    simp only [List.length_cons] at hp
    rw [storeProgram, ih _ _ (by omega), memRead_setCell _ _ _ (by omega)]
    rcases Nat.lt_trichotomy b a with h | rfl | h
    · rw [if_pos (by omega), if_neg (by omega), if_pos h]
    · simp
    · rw [if_neg (by omega), if_neg (by omega), if_neg (by omega), show b - a = b - (a + 1) + 1 by omega,
        List.getElem?_cons_succ]

/-! ### The canonical form -/

theorem mem_insertCell {a : Nat} {v : Byte} {cs : List Host.Cell} {c : Host.Cell} :
    c ∈ insertCell a v cs ↔ c = (a, v) ∨ c ∈ cs := by
  induction cs with
  | nil => simp [insertCell]
  | cons d cs ih =>
    unfold insertCell
    split
    · simp
    · simp only [List.mem_cons, ih]
      tauto

theorem pairwise_insertCell {a : Nat} {v : Byte} {cs : List Host.Cell}
    (hs : cs.Pairwise (fun c d => c.1 < d.1)) (hne : ∀ c ∈ cs, c.1 ≠ a) :
    (insertCell a v cs).Pairwise (fun c d => c.1 < d.1) := by
  induction cs with
  | nil => simp [insertCell]
  | cons d cs ih =>
    have hd := List.pairwise_cons.mp hs
    have hda : d.1 ≠ a := hne d (by simp)
    unfold insertCell
    split
    · rename_i hlt
      refine List.pairwise_cons.mpr ⟨fun c hc => ?_, hs⟩
      rcases List.mem_cons.mp hc with rfl | hc
      · exact hlt
      · exact lt_trans hlt (hd.1 c hc)
    · rename_i hge
      refine List.pairwise_cons.mpr ⟨fun c hc => ?_, ih hd.2 fun c hc => hne c (by simp [hc])⟩
      rcases mem_insertCell.mp hc with rfl | hc
      · simp only at *; omega
      · exact hd.1 c hc

theorem setCell_wf {m : Memory} (hm : m.wf) {a : Nat} (v : Byte) (ha : a < memSize) : (setCell m a v).wf := by
  have hs := hm.1.filter (fun c : Host.Cell => c.1 != a)
  unfold setCell
  by_cases hv : v = Memory.unlisted
  · simp only [hv, if_true]
    exact ⟨hs, fun c hc => hm.2 c (List.mem_filter.mp hc).1⟩
  · simp only [hv, if_false]
    refine ⟨pairwise_insertCell hs (by simp), fun c hc => ?_⟩
    rcases mem_insertCell.mp hc with rfl | hc
    · exact ⟨ha, hv⟩
    · exact hm.2 c (List.mem_filter.mp hc).1

theorem memWrite_wf {m m' : Memory} {a : Nat} {v : Byte} (hm : m.wf) (h : memWrite m a v = some m') : m'.wf := by
  obtain ⟨ha, rfl⟩ := memWrite_eq_some h
  exact setCell_wf hm v ha

theorem storeBytes_wf {m : Memory} (hm : m.wf) (a : Nat) (bs : List Byte) : (storeBytes m a bs).wf := by
  induction bs generalizing m a with
  | nil => exact hm
  | cons b bs ih =>
    refine ih ?_ _
    cases h : memWrite m a b with
    | none => exact hm
    | some m' => exact memWrite_wf hm h

theorem storeProgram_wf {m : Memory} (hm : m.wf) (a : Nat) (p : List Nat) (h : a + p.length ≤ memSize) :
    (storeProgram m a p).wf := by
  induction p generalizing m a with
  | nil => exact hm
  | cons v vs ih =>
    simp only [List.length_cons] at h
    exact ih (setCell_wf hm _ (by omega)) _ (by omega)

/-- Reset memory lists nothing and is in canonical form. -/
theorem reset_mem_wf (sp : Byte) : (State.resetWith sp).mem.wf := by
  simp [State.resetWith, Memory.wf]

end Sys2Proof.Machine
end

