-- ==== Sys2Proof/Laws/Operands.lean ====
section
/-! SUPPORT. Everything the operand forms and the range checks can do (rule R117, rule R143, rule R164). -/

namespace Sys2Proof.Machine

@[simp] theorem indexByte_toNat (i : Fin 8) : (indexByte i).toNat = i.val := by
  revert i; decide

@[simp] theorem regIndex_indexByte (i : Fin 8) : regIndex (indexByte i) = some i := by
  revert i; decide

theorem indexByte_injective {i j : Fin 8} (h : indexByte i = indexByte j) : i = j := by
  revert i j; decide

/-- A byte names a register exactly when it is that register's operand byte. -/
theorem regIndex_eq_some {b : Byte} {i : Fin 8} : regIndex b = some i ↔ b = indexByte i := by
  constructor
  · intro h
    unfold regIndex at h
    split at h
    · obtain rfl := Option.some.inj h
      exact BitVec.eq_of_toNat_eq (by simp)
    · simp at h
  · rintro rfl
    simp

theorem regIndex_eq_none {b : Byte} : regIndex b = none ↔ 8 ≤ b.toNat := by
  simp [regIndex]

/-- Every operand byte either names a register or is 8 or more. -/
theorem indexByte_or_illegal (b : Byte) : (∃ i, b = indexByte i) ∨ 8 ≤ b.toNat := by
  cases h : regIndex b with
  | some i => exact .inl ⟨i, regIndex_eq_some.mp h⟩
  | none => exact .inr (regIndex_eq_none.mp h)

@[simp] theorem withReg_indexByte (pos : Fin 2) (i : Fin 8) (op : Byte) (s : State) (k : Fin 8 → Result) :
    withReg pos (indexByte i) op s k = k i := by
  simp [withReg]

theorem withReg_illegal {pos : Fin 2} {b op : Byte} {s : State} {k : Fin 8 → Result} (h : 8 ≤ b.toNat) :
    withReg pos b op s k = raise (.registerIndexOutOfRange pos b op s.pc) s := by
  simp [withReg, regIndex_eq_none.mpr h]

/-- The two ways register operand resolution can go. -/
theorem withReg_cases (pos : Fin 2) (b op : Byte) (s : State) (k : Fin 8 → Result) :
    (∃ i, b = indexByte i ∧ withReg pos b op s k = k i) ∨
    (8 ≤ b.toNat ∧ withReg pos b op s k = raise (.registerIndexOutOfRange pos b op s.pc) s) := by
  rcases indexByte_or_illegal b with ⟨i, rfl⟩ | h
  · exact .inl ⟨i, rfl, by simp⟩
  · exact .inr ⟨h, withReg_illegal h⟩

theorem stackAddress_eq (sp : Byte) : stackAddress sp = sp.toNat := by
  have := sp.isLt
  simp [stackAddress]
  omega

theorem stackAddress_lt (sp : Byte) : stackAddress sp < memSize := by
  have := sp.isLt
  rw [stackAddress_eq, memSize]
  omega

/-! ### Range checks -/

@[simp] theorem narrow_of_le {p : Policy} {n : Nat} (h : n ≤ 255) : narrow p n = some (BitVec.ofNat 8 n) := by
  simp [narrow, h]

@[simp] theorem narrow_fault_of_gt {n : Nat} (h : 255 < n) : narrow .fault n = none := by
  simp [narrow, outOfRange, Nat.not_le.mpr h]

/-- The policy in force: a result is narrowed exactly when it is 255 or less. -/
theorem narrow_eq_some {n : Nat} {v : Byte} :
    narrow Config.overflowPolicy n = some v ↔ n ≤ 255 ∧ v.toNat = n := by
  rcases Nat.lt_or_ge 255 n with h | h
  · simp [Config.overflowPolicy, h, Nat.not_le.mpr h]
  · have : n % 256 = n := Nat.mod_eq_of_lt (by omega)
    simp only [h, narrow_of_le, Option.some.injEq, true_and]
    constructor
    · rintro rfl; simpa using this
    · intro hv; exact BitVec.eq_of_toNat_eq (by simpa [hv] using this)

theorem narrow_eq_none {n : Nat} : narrow Config.overflowPolicy n = none ↔ 255 < n := by
  rcases Nat.lt_or_ge 255 n with h | h
  · simp [Config.overflowPolicy, h]
  · simp [h, Nat.not_lt.mpr h]

theorem spDown_zero : spDown Config.stackPolicy 0 = none := rfl

theorem spDown_ne_zero {sp : Byte} (h : sp ≠ 0) : spDown Config.stackPolicy sp = some (sp - 1) := if_neg h

theorem spUp_top : spUp Config.stackPolicy 255 = none := rfl

theorem spUp_ne_top {sp : Byte} (h : sp ≠ 255) : spUp Config.stackPolicy sp = some (sp + 1) := if_neg h

end Sys2Proof.Machine
end

