-- ==== Sys2Proof/Laws/State.lean ====
section
/-! SUPPORT. One lemma per field per update of the state, so that no later proof unfolds a record update; and the
register file's read-after-write law (rule R20, rule R22). -/

namespace Sys2Proof.Machine

@[simp] theorem setReg_pc (s : State) (i : Fin 8) (v : Byte) : (s.setReg i v).pc = s.pc := rfl
@[simp] theorem setReg_runState (s : State) (i : Fin 8) (v : Byte) : (s.setReg i v).runState = s.runState := rfl
@[simp] theorem setReg_fault (s : State) (i : Fin 8) (v : Byte) : (s.setReg i v).fault = s.fault := rfl
@[simp] theorem setReg_out (s : State) (i : Fin 8) (v : Byte) : (s.setReg i v).out = s.out := rfl
@[simp] theorem setReg_mem (s : State) (i : Fin 8) (v : Byte) : (s.setReg i v).mem = s.mem := rfl

@[simp] theorem setPc_regs (s : State) (p : Pc) : (s.setPc p).regs = s.regs := rfl
@[simp] theorem setPc_reg (s : State) (p : Pc) (i : Fin 8) : (s.setPc p).reg i = s.reg i := rfl
@[simp] theorem setPc_pc (s : State) (p : Pc) : (s.setPc p).pc = p := rfl
@[simp] theorem setPc_runState (s : State) (p : Pc) : (s.setPc p).runState = s.runState := rfl
@[simp] theorem setPc_fault (s : State) (p : Pc) : (s.setPc p).fault = s.fault := rfl
@[simp] theorem setPc_out (s : State) (p : Pc) : (s.setPc p).out = s.out := rfl
@[simp] theorem setPc_mem (s : State) (p : Pc) : (s.setPc p).mem = s.mem := rfl

@[simp] theorem setMem_regs (s : State) (m : Memory) : (s.setMem m).regs = s.regs := rfl
@[simp] theorem setMem_reg (s : State) (m : Memory) (i : Fin 8) : (s.setMem m).reg i = s.reg i := rfl
@[simp] theorem setMem_pc (s : State) (m : Memory) : (s.setMem m).pc = s.pc := rfl
@[simp] theorem setMem_runState (s : State) (m : Memory) : (s.setMem m).runState = s.runState := rfl
@[simp] theorem setMem_fault (s : State) (m : Memory) : (s.setMem m).fault = s.fault := rfl
@[simp] theorem setMem_out (s : State) (m : Memory) : (s.setMem m).out = s.out := rfl
@[simp] theorem setMem_mem (s : State) (m : Memory) : (s.setMem m).mem = m := rfl

@[simp] theorem emit_regs (s : State) (v : Byte) : (s.emit v).regs = s.regs := rfl
@[simp] theorem emit_reg (s : State) (v : Byte) (i : Fin 8) : (s.emit v).reg i = s.reg i := rfl
@[simp] theorem emit_pc (s : State) (v : Byte) : (s.emit v).pc = s.pc := rfl
@[simp] theorem emit_runState (s : State) (v : Byte) : (s.emit v).runState = s.runState := rfl
@[simp] theorem emit_fault (s : State) (v : Byte) : (s.emit v).fault = s.fault := rfl
@[simp] theorem emit_out (s : State) (v : Byte) : (s.emit v).out = s.out ++ [v] := rfl
@[simp] theorem emit_mem (s : State) (v : Byte) : (s.emit v).mem = s.mem := rfl

@[simp] theorem halt_regs (s : State) : s.halt.regs = s.regs := rfl
@[simp] theorem halt_reg (s : State) (i : Fin 8) : s.halt.reg i = s.reg i := rfl
@[simp] theorem halt_pc (s : State) : s.halt.pc = s.pc := rfl
@[simp] theorem halt_runState (s : State) : s.halt.runState = .halted := rfl
@[simp] theorem halt_fault (s : State) : s.halt.fault = s.fault := rfl
@[simp] theorem halt_out (s : State) : s.halt.out = s.out := rfl
@[simp] theorem halt_mem (s : State) : s.halt.mem = s.mem := rfl

@[simp] theorem takeFault_regs (r : FaultRecord) (s : State) : (takeFault r s).regs = s.regs := rfl
@[simp] theorem takeFault_reg (r : FaultRecord) (s : State) (i : Fin 8) : (takeFault r s).reg i = s.reg i := rfl
@[simp] theorem takeFault_pc (r : FaultRecord) (s : State) : (takeFault r s).pc = s.pc := rfl
@[simp] theorem takeFault_runState (r : FaultRecord) (s : State) : (takeFault r s).runState = .faulted := rfl
@[simp] theorem takeFault_fault (r : FaultRecord) (s : State) : (takeFault r s).fault = some r := rfl
@[simp] theorem takeFault_out (r : FaultRecord) (s : State) : (takeFault r s).out = s.out := rfl
@[simp] theorem takeFault_mem (r : FaultRecord) (s : State) : (takeFault r s).mem = s.mem := rfl

/-- A register reads back the last value written to it, and a write leaves every other register alone. -/
@[simp] theorem reg_setReg (s : State) (i j : Fin 8) (v : Byte) :
    (s.setReg i v).reg j = if i = j then v else s.reg j := by
  simp [State.reg, State.setReg, Vector.getElem_set, Fin.ext_iff]

theorem reg_setReg_same (s : State) (i : Fin 8) (v : Byte) : (s.setReg i v).reg i = v := by simp

theorem reg_setReg_other (s : State) {i j : Fin 8} (v : Byte) (h : i ≠ j) :
    (s.setReg i v).reg j = s.reg j := by simp [h]

/-- Two states with the same fields are the same state; the registers are compared one by one. -/
theorem state_ext {s t : State} (hr : ∀ i, s.reg i = t.reg i) (hp : s.pc = t.pc) (hs : s.runState = t.runState)
    (hf : s.fault = t.fault) (ho : s.out = t.out) (hm : s.mem = t.mem) : s = t := by
  have hregs : s.regs = t.regs := Vector.ext fun k hk => hr ⟨k, hk⟩
  cases s; cases t; simp_all

end Sys2Proof.Machine
end

