-- ==== Sys2Proof/Laws/Exec.lean ====
section
/-! SUPPORT. One spec lemma per meaning, which says everything it can do: the equation for its own effect, the
equation for each fault, and one inversion lemma over all instructions (`exec_cases`). -/

namespace Sys2Proof.Machine

/-! ### LOAD-IMMEDIATE and PRINT-REGISTER -/

theorem execLoadImmediate_eq (p : Bool) (i : Fin 8) (v : Byte) (s : State) :
    execLoadImmediate p (indexByte i) v s = .next (s.setReg i v) := by
  simp [execLoadImmediate]

theorem execPrintRegister_eq (p : Bool) (i : Fin 8) (s : State) :
    execPrintRegister p (indexByte i) s = .next (s.emit (s.reg i)) := by
  simp [execPrintRegister]

/-! ### ADD and MUL -/

theorem aluApply_eq {f : Nat → Nat → Nat} {op : Byte} {i j : Fin 8} {s : State}
    (h : f (s.reg i).toNat (s.reg j).toNat ≤ 255) :
    aluApply f op (indexByte i) (indexByte j) s =
      .next (s.setReg i (BitVec.ofNat 8 (f (s.reg i).toNat (s.reg j).toNat))) := by
  simp [aluApply, h]

theorem aluApply_overflow {f : Nat → Nat → Nat} {op : Byte} {i j : Fin 8} {s : State}
    (h : 255 < f (s.reg i).toNat (s.reg j).toNat) :
    aluApply f op (indexByte i) (indexByte j) s =
      raise (.arithmeticOverflow op s.pc (f (s.reg i).toNat (s.reg j).toNat)) s := by
  simp [aluApply, narrow_eq_none.mpr h]

/-- Everything an ALU operation can do. -/
theorem aluApply_cases (f : Nat → Nat → Nat) (op a b : Byte) (s : State) :
    (∃ i j, a = indexByte i ∧ b = indexByte j ∧ f (s.reg i).toNat (s.reg j).toNat ≤ 255 ∧
      aluApply f op a b s = .next (s.setReg i (BitVec.ofNat 8 (f (s.reg i).toNat (s.reg j).toNat)))) ∨
    (∃ i j, a = indexByte i ∧ b = indexByte j ∧ 255 < f (s.reg i).toNat (s.reg j).toNat ∧
      aluApply f op a b s = raise (.arithmeticOverflow op s.pc (f (s.reg i).toNat (s.reg j).toNat)) s) ∨
    (8 ≤ a.toNat ∧ aluApply f op a b s = raise (.registerIndexOutOfRange 0 a op s.pc) s) ∨
    (∃ i, a = indexByte i ∧ 8 ≤ b.toNat ∧
      aluApply f op a b s = raise (.registerIndexOutOfRange 1 b op s.pc) s) := by
  rcases indexByte_or_illegal a with ⟨i, rfl⟩ | ha
  · rcases indexByte_or_illegal b with ⟨j, rfl⟩ | hb
    · rcases Nat.lt_or_ge 255 (f (s.reg i).toNat (s.reg j).toNat) with h | h
      · exact .inr (.inl ⟨i, j, rfl, rfl, h, aluApply_overflow h⟩)
      · exact .inl ⟨i, j, rfl, rfl, h, aluApply_eq h⟩
    · exact .inr (.inr (.inr ⟨i, rfl, hb, by simp [aluApply, withReg_illegal hb]⟩))
  · exact .inr (.inr (.inl ⟨ha, by simp [aluApply, withReg_illegal ha]⟩))

/-! ### PUSH and POP -/

theorem execPush_eq (p : Bool) {i : Fin 8} {s : State} (h : s.reg spIndex ≠ 0) :
    execPush p (indexByte i) s = .next ((s.setReg spIndex (s.reg spIndex - 1)).setMem
      (setCell s.mem (stackAddress (s.reg spIndex - 1)) ((s.setReg spIndex (s.reg spIndex - 1)).reg i))) := by
  have hd : spDown Config.stackPolicy (s.reg spIndex) = some (s.reg spIndex - 1) := spDown_ne_zero h
  simp only [execPush, withReg_indexByte, hd, memWrite_of_lt _ _ (stackAddress_lt _)]

theorem execPush_atZero (p : Bool) {i : Fin 8} {s : State} (h : s.reg spIndex = 0) :
    execPush p (indexByte i) s =
      raise (.stackPointerOutOfRange (Instr.push p (indexByte i)).opcodeByte s.pc 0) s := by
  simp only [execPush, withReg_indexByte, h, spDown_zero]

/-- The stack pointer as it stands after POP's load (rule R161). -/
def popPointer (i : Fin 8) (s : State) : Byte :=
  if i = spIndex then lookupCell s.mem.cells (stackAddress (s.reg spIndex)) else s.reg spIndex

theorem loaded_reg_sp (i : Fin 8) (s : State) :
    (s.setReg i (lookupCell s.mem.cells (stackAddress (s.reg spIndex)))).reg spIndex = popPointer i s := by
  simp [popPointer]

theorem execPop_eq (p : Bool) {i : Fin 8} {s : State} (h : popPointer i s ≠ 255) :
    execPop p (indexByte i) s = .next ((s.setReg i (lookupCell s.mem.cells (stackAddress (s.reg spIndex)))).setReg
      spIndex (popPointer i s + 1)) := by
  have hu : spUp Config.stackPolicy (popPointer i s) = some (popPointer i s + 1) := spUp_ne_top h
  simp only [execPop, withReg_indexByte, memRead_of_lt _ (stackAddress_lt _), loaded_reg_sp, hu]

theorem execPop_atTop (p : Bool) {i : Fin 8} {s : State} (h : popPointer i s = 255) :
    execPop p (indexByte i) s =
      raise (.stackPointerOutOfRange (Instr.pop p (indexByte i)).opcodeByte s.pc 255) s := by
  simp only [execPop, withReg_indexByte, memRead_of_lt _ (stackAddress_lt _), loaded_reg_sp, h, spUp_top]

/-! ### All instructions -/

/-- What one instruction can do: halt; write one register; emit one value; push; pop; or raise one of the three
faults of the execute stage (rule R180, items 5 and 6). -/
inductive Effect (s : State) : Instr → State → Prop where
  | halt (p : Bool) : Effect s (.halt p) s.halt
  | load (p : Bool) (i : Fin 8) (v : Byte) : Effect s (.loadImmediate p (indexByte i) v) (s.setReg i v)
  | print (p : Bool) (i : Fin 8) : Effect s (.printRegister p (indexByte i)) (s.emit (s.reg i))
  | push (p : Bool) (i : Fin 8) (h : s.reg spIndex ≠ 0) : Effect s (.push p (indexByte i))
      ((s.setReg spIndex (s.reg spIndex - 1)).setMem
        (setCell s.mem (stackAddress (s.reg spIndex - 1)) ((s.setReg spIndex (s.reg spIndex - 1)).reg i)))
  | pop (p : Bool) (i : Fin 8) (h : popPointer i s ≠ 255) : Effect s (.pop p (indexByte i))
      ((s.setReg i (lookupCell s.mem.cells (stackAddress (s.reg spIndex)))).setReg spIndex (popPointer i s + 1))
  | add (p : Bool) (i j : Fin 8) (h : (s.reg i).toNat + (s.reg j).toNat ≤ 255) :
      Effect s (.add p (indexByte i) (indexByte j)) (s.setReg i (BitVec.ofNat 8 ((s.reg i).toNat + (s.reg j).toNat)))
  | mul (p : Bool) (i j : Fin 8) (h : (s.reg i).toNat * (s.reg j).toNat ≤ 255) :
      Effect s (.mul p (indexByte i) (indexByte j)) (s.setReg i (BitVec.ofNat 8 ((s.reg i).toNat * (s.reg j).toNat)))

/-- The faults of the execute stage, each with its record. -/
inductive Raises (s : State) : Instr → FaultRecord → Prop where
  | index0 (i : Instr) (b : Byte) (tl : List Byte) (hr : i.registerOperands = b :: tl) (h : 8 ≤ b.toNat) :
      Raises s i (.registerIndexOutOfRange 0 b i.opcodeByte s.pc)
  | index1 (i : Instr) (k : Fin 8) (b : Byte) (hr : i.registerOperands = [indexByte k, b]) (h : 8 ≤ b.toNat) :
      Raises s i (.registerIndexOutOfRange 1 b i.opcodeByte s.pc)
  | sum (p : Bool) (i j : Fin 8) (h : 255 < (s.reg i).toNat + (s.reg j).toNat) :
      Raises s (.add p (indexByte i) (indexByte j))
        (.arithmeticOverflow (Instr.add p (indexByte i) (indexByte j)).opcodeByte s.pc
          ((s.reg i).toNat + (s.reg j).toNat))
  | product (p : Bool) (i j : Fin 8) (h : 255 < (s.reg i).toNat * (s.reg j).toNat) :
      Raises s (.mul p (indexByte i) (indexByte j))
        (.arithmeticOverflow (Instr.mul p (indexByte i) (indexByte j)).opcodeByte s.pc
          ((s.reg i).toNat * (s.reg j).toNat))
  | pushAtZero (p : Bool) (i : Fin 8) (h : s.reg spIndex = 0) : Raises s (.push p (indexByte i))
      (.stackPointerOutOfRange (Instr.push p (indexByte i)).opcodeByte s.pc 0)
  | popAtTop (p : Bool) (i : Fin 8) (h : popPointer i s = 255) : Raises s (.pop p (indexByte i))
      (.stackPointerOutOfRange (Instr.pop p (indexByte i)).opcodeByte s.pc 255)

/-- Everything `exec` can do: an instruction has its effect or raises its fault, and there is no third outcome. -/
theorem exec_cases (i : Instr) (s : State) :
    (∃ t, Effect s i t ∧ exec i s = .next t) ∨ (∃ r, Raises s i r ∧ exec i s = raise r s) := by
  cases i with
  | halt p => exact .inl ⟨_, .halt p, rfl⟩
  | loadImmediate p r v =>
    rcases indexByte_or_illegal r with ⟨i, rfl⟩ | h
    · exact .inl ⟨_, .load p i v, execLoadImmediate_eq p i v s⟩
    · exact .inr ⟨_, .index0 (.loadImmediate p r v) r [] rfl h, withReg_illegal h⟩
  | printRegister p r =>
    rcases indexByte_or_illegal r with ⟨i, rfl⟩ | h
    · exact .inl ⟨_, .print p i, execPrintRegister_eq p i s⟩
    · exact .inr ⟨_, .index0 (.printRegister p r) r [] rfl h, withReg_illegal h⟩
  | push p r =>
    rcases indexByte_or_illegal r with ⟨i, rfl⟩ | h
    · by_cases h : s.reg spIndex = 0
      · exact .inr ⟨_, .pushAtZero p i h, execPush_atZero p h⟩
      · exact .inl ⟨_, .push p i h, execPush_eq p h⟩
    · exact .inr ⟨_, .index0 (.push p r) r [] rfl h, withReg_illegal h⟩
  | pop p r =>
    rcases indexByte_or_illegal r with ⟨i, rfl⟩ | h
    · by_cases h : popPointer i s = 255
      · exact .inr ⟨_, .popAtTop p i h, execPop_atTop p h⟩
      · exact .inl ⟨_, .pop p i h, execPop_eq p h⟩
    · exact .inr ⟨_, .index0 (.pop p r) r [] rfl h, withReg_illegal h⟩
  | add p a b =>
    rcases aluApply_cases (fun m n => m + n) (Instr.add p a b).opcodeByte a b s with
      ⟨i, j, rfl, rfl, h, e⟩ | ⟨i, j, rfl, rfl, h, e⟩ | ⟨h, e⟩ | ⟨i, rfl, h, e⟩
    · exact .inl ⟨_, .add p i j h, e⟩
    · exact .inr ⟨_, .sum p i j h, e⟩
    · exact .inr ⟨_, .index0 (.add p a b) a [b] rfl h, e⟩
    · exact .inr ⟨_, .index1 (.add p (indexByte i) b) i b rfl h, e⟩
  | mul p a b =>
    rcases aluApply_cases (fun m n => m * n) (Instr.mul p a b).opcodeByte a b s with
      ⟨i, j, rfl, rfl, h, e⟩ | ⟨i, j, rfl, rfl, h, e⟩ | ⟨h, e⟩ | ⟨i, rfl, h, e⟩
    · exact .inl ⟨_, .mul p i j h, e⟩
    · exact .inr ⟨_, .product p i j h, e⟩
    · exact .inr ⟨_, .index0 (.mul p a b) a [b] rfl h, e⟩
    · exact .inr ⟨_, .index1 (.mul p (indexByte i) b) i b rfl h, e⟩

/-- An instruction's own effect leaves the pc and the fault record alone (rule R29). -/
theorem Effect.control {s t : State} {i : Instr} (h : Effect s i t) : t.pc = s.pc ∧ t.fault = s.fault := by
  cases h <;> simp

/-- An instruction's own effect leaves the run state alone, but for HALT. -/
theorem Effect.runState {s t : State} {i : Instr} (h : Effect s i t) :
    t.runState = s.runState ∨ (∃ p, i = .halt p) ∧ t = s.halt := by
  cases h <;> simp

end Sys2Proof.Machine
end

