-- ==== Sys2Proof/Laws/PerInstr.lean ====
section
/-! SUPPORT. A statement about every instruction as syntax, one lemma per constructor: its opcode byte selects its
own operation, and its encoding has its operand count and one byte (rule R80, rule R84, rule R88). -/

namespace Sys2Proof.Laws.OpcodeSelects

/-- The opcode byte decodes to the table's row, selects the operation, and fixes the length. -/
def Statement (i : Instr) : Prop :=
  select (decodeByte i.opcodeByte) = .ok i.operation ∧
  (encode i).length = (decodeByte i.opcodeByte).count.toNat + 1

theorem of_descriptor (i : Instr) : Statement i := by
  simp [Statement, length_encode]

theorem halt (p : Bool) : Statement (.halt p) := of_descriptor _
theorem loadImmediate (p : Bool) (r v : Byte) : Statement (.loadImmediate p r v) := of_descriptor _
theorem printRegister (p : Bool) (r : Byte) : Statement (.printRegister p r) := of_descriptor _
theorem push (p : Bool) (r : Byte) : Statement (.push p r) := of_descriptor _
theorem pop (p : Bool) (r : Byte) : Statement (.pop p r) := of_descriptor _
theorem add (p : Bool) (a b : Byte) : Statement (.add p a b) := of_descriptor _
theorem mul (p : Bool) (a b : Byte) : Statement (.mul p a b) := of_descriptor _

end Sys2Proof.Laws.OpcodeSelects
end

