-- ==== Sys2Proof/Laws/Step.lean ====
section
/-! SUPPORT. The engine's stages, once: what the operand fetch yields, what the end of a step does, and one
inversion lemma for the step (`step_cases`). -/

namespace Sys2Proof.Machine

/-! ### Fetching -/

theorem length_bytesFrom_le (m : Memory) (a n : Nat) : (bytesFrom m a n).length ≤ n := by
  induction n generalizing a with
  | zero => simp [bytesFrom]
  | succ n ih =>
    unfold bytesFrom
    split
    · simp
    · simpa using ih (a + 1)

/-- All the bytes are there when they end inside memory. -/
theorem length_bytesFrom {m : Memory} {a n : Nat} (h : a + n ≤ memSize) : (bytesFrom m a n).length = n := by
  induction n generalizing a with
  | zero => simp [bytesFrom]
  | succ n ih => simp [bytesFrom, memRead_of_lt m (show a < memSize by omega), ih (show a + 1 + n ≤ memSize by omega)]

/-- Fewer bytes are the first of more bytes. -/
theorem take_bytesFrom (m : Memory) (a : Nat) {k n : Nat} (h : k ≤ n) :
    (bytesFrom m a n).take k = bytesFrom m a k := by
  induction k generalizing a n with
  | zero => simp [bytesFrom]
  | succ k ih =>
    obtain ⟨n, rfl⟩ : ∃ n', n = n' + 1 := ⟨n - 1, by omega⟩
    cases hr : memRead m a with
    | none => simp [bytesFrom, hr]
    | some b => simp [bytesFrom, hr, ih (a + 1) (show k ≤ n by omega)]

/-- At least the bytes that lie inside memory are there. -/
theorem le_length_bytesFrom {m : Memory} {a k n : Nat} (hk : k ≤ n) (h : a + k ≤ memSize) :
    k ≤ (bytesFrom m a n).length := by
  have hl := congrArg List.length (take_bytesFrom m a hk)
  rw [length_bytesFrom h, List.length_take] at hl
  omega

/-- Each byte is the one memory holds at its address. -/
theorem getElem?_bytesFrom (m : Memory) {a k n : Nat} (hk : k < n) (ha : a + k < memSize) :
    (bytesFrom m a n)[k]? = memRead m (a + k) := by
  induction n generalizing a k with
  | zero => omega
  | succ n ih =>
    rw [bytesFrom, memRead_of_lt m (show a < memSize by omega)]
    cases k with
    | zero => simp [memRead_of_lt m (show a < memSize by omega)]
    | succ k =>
      rw [List.getElem?_cons_succ, ih (show k < n by omega) (show a + 1 + k < memSize by omega)]
      congr 1
      omega

/-- The operand fetch reads the bytes when they end inside memory. -/
theorem fetchOperands_ok {m : Memory} {a n : Nat} (h : a + n ≤ memSize) :
    fetchOperands m a n = .ok (bytesFrom m a n) := by
  induction n generalizing a with
  | zero => rfl
  | succ n ih =>
    simp [fetchOperands, bytesFrom, memRead_of_lt m (show a < memSize by omega), ih (show a + 1 + n ≤ memSize by omega)]

/-- Otherwise it fails at the first address outside memory. -/
theorem fetchOperands_error {m : Memory} {a n : Nat} (ha : a ≤ memSize) (h : memSize < a + n) :
    fetchOperands m a n = .error memSize := by
  induction n generalizing a with
  | zero => omega
  | succ n ih =>
    rcases Nat.lt_or_ge a memSize with hlt | hge
    · simp [fetchOperands, memRead_of_lt m hlt, ih (show a + 1 ≤ memSize by omega) (by omega)]
    · obtain rfl : a = memSize := by omega
      simp [fetchOperands, memRead_of_ge]

theorem codeAtPc_cons {s : State} {ir : Byte} (h : fetchOpcode s = some ir) :
    codeAtPc s = ir :: bytesFrom s.mem (s.pc.toNat + 1) 3 := by
  unfold fetchOpcode at h
  simp [codeAtPc, bytesFrom, h]

/-! ### The end of a step -/

theorem finishStep_raise (c : Nat) (r : FaultRecord) (s : State) : finishStep c (raise r s) = raise r s := by
  simp [finishStep, raise, advance]

theorem finishStep_next (c : Nat) (t : State) : finishStep c (.next t) = .next (advance c t) := rfl

theorem advance_running {c : Nat} {t : State} (h : t.runState = .running) :
    advance c t = t.setPc (t.pc + BitVec.ofNat 9 (c + 1)) := by
  simp [advance, h]

theorem advance_ended {c : Nat} {t : State} (h : t.runState ≠ .running) : advance c t = t := by
  simp [advance, h]

@[simp] theorem advance_reg (c : Nat) (t : State) (i : Fin 8) : (advance c t).reg i = t.reg i := by
  unfold advance; split <;> simp
@[simp] theorem advance_mem (c : Nat) (t : State) : (advance c t).mem = t.mem := by
  unfold advance; split <;> simp
@[simp] theorem advance_out (c : Nat) (t : State) : (advance c t).out = t.out := by
  unfold advance; split <;> simp
@[simp] theorem advance_fault (c : Nat) (t : State) : (advance c t).fault = t.fault := by
  unfold advance; split <;> simp
@[simp] theorem advance_runState (c : Nat) (t : State) : (advance c t).runState = t.runState := by
  unfold advance; split <;> simp

/-- An opcode byte's operand count is at most 3. -/
theorem count_le_three (d : Descriptor) : d.count.toNat ≤ 3 := by
  have := d.count.isLt
  omega

/-! ### The step -/

/-- Only a running state steps (rule R31). -/
theorem running_of_step_next {s t : State} (h : step s = .next t) : s.runState = .running := by
  cases hr : s.runState <;> simp [step, engineStep, hr] at h ⊢

/-- Everything a step from a running state can do, stage by stage (rule R110): the opcode fetch fails; the operand
fetch fails at 256; the opcode byte selects nothing; or the decoded instruction raises its fault or has its
effect, after which the pc is advanced unless it halted. -/
theorem step_cases {s : State} (hrun : s.runState = .running) :
    (memSize ≤ s.pc.toNat ∧ step s = raise (.outOfBounds s.pc.toNat s.pc) s) ∨
    (∃ ir, fetchOpcode s = some ir ∧ s.pc.toNat < memSize ∧ (decodeByte ir).isHalt = false ∧
      memSize ≤ s.pc.toNat + (decodeByte ir).count.toNat ∧ step s = raise (.outOfBounds memSize s.pc) s) ∨
    (∃ ir why, fetchOpcode s = some ir ∧ s.pc.toNat + (decodeByte ir).count.toNat < memSize ∧
      select (decodeByte ir) = .error why ∧ step s = raise (rejectRecord why ir s.pc) s) ∨
    (∃ ir i rest, fetchOpcode s = some ir ∧ s.pc.toNat + (decodeByte ir).count.toNat < memSize ∧
      decodeByte ir = i.descriptor ∧ decode (codeAtPc s) = .ok (i, rest) ∧
      step s = finishStep (decodeByte ir).count.toNat (exec i s)) := by
  cases hir : fetchOpcode s with
  | none => exact .inl ⟨memRead_eq_none.mp hir, by simp [step, engineStep, hrun, hir]⟩
  | some ir =>
    have hpc : s.pc.toNat < memSize := memRead_eq_some_lt hir
    have hstep : step s = afterFetch ir s := by simp [step, engineStep, hrun, hir]
    refine .inr ?_
    cases hh : (decodeByte ir).isHalt with
    | true =>
      have hc := count_of_isHalt hh
      have hsel := (isHalt_iff_select _).mp hh
      refine .inr (.inr ⟨ir, .halt (decodeByte ir).pcc, _, rfl, by simpa [hc] using hpc, ?_,
        codeAtPc_cons hir ▸ decode_of_select hsel (by simp [hc]), ?_⟩)
      · exact select_eq_ok hsel
      · simp [hstep, afterFetch, hh, exec, execHalt, finishStep, advance]
    | false =>
      simp only [afterFetch, hh, Bool.false_eq_true, if_false] at hstep
      rcases Nat.lt_or_ge (s.pc.toNat + (decodeByte ir).count.toNat) memSize with hfit | hover
      · rw [fetchOperands_ok (by omega)] at hstep
        cases hsel : select (decodeByte ir) with
        | error why => exact .inr (.inl ⟨ir, why, rfl, hfit, hsel, by simp [hstep, dispatchStage, hsel]⟩)
        | ok op =>
          have hle := count_le_three (decodeByte ir)
          have hlen : (decodeByte ir).count.toNat ≤ (bytesFrom s.mem (s.pc.toNat + 1) 3).length :=
            le_length_bytesFrom hle (by omega)
          refine .inr (.inr ⟨ir, _, _, rfl, hfit, ?_, codeAtPc_cons hir ▸ decode_of_select hsel hlen, ?_⟩)
          · rw [select_eq_ok hsel]; simp [Instr.descriptor]
          · simp [hstep, dispatchStage, hsel, take_bytesFrom _ _ hle]
      · rw [fetchOperands_error (by omega) (by omega)] at hstep
        exact .inl ⟨ir, rfl, hpc, hh, hover, hstep⟩

end Sys2Proof.Machine
end

