-- ==== Sys2Proof/Tests/Slice0.lean ====
section
/-! SUPPORT. The model's own tests: the WellFormed smoke tests, words written out from rule R81 and rule R85,
single steps from the vectors of spec/95_test_vectors.md (each cites its row), and one witness per statement with
hypotheses, at the boundary of their ranges. -/

namespace Sys2Proof.Tests

open Sys2Proof Sys2Proof.Machine

/-! ### Helpers -/

/-- The state an outcome answers with; the reset state stands for no state. -/
def after (o : Result) : State :=
  match o with
  | .next t => t
  | .fault _ | .refused _ => State.reset

/-- The reset state at a pc with bytes placed there, and then some registers set. -/
def start (pc : Pc) (code : List Byte) (regs : List (Fin 8 × Byte) := []) : State :=
  regs.foldl (fun s r => s.setReg r.1 r.2)
    { State.reset with pc := pc, mem := storeBytes State.reset.mem pc.toNat code }

/-- One more memory cell set. -/
def cell (a : Nat) (v : Byte) (s : State) : State := s.setMem (setCell s.mem a v)

/-! ### WellFormed: one ill-formed term per check, and a well-formed one -/

theorem test_wf_refuses_load : (Instr.loadImmediate false 8 0).wellFormed = false := by decide
theorem test_wf_refuses_print : (Instr.printRegister false 255).wellFormed = false := by decide
theorem test_wf_refuses_push : (Instr.push false 8).wellFormed = false := by decide
theorem test_wf_refuses_pop : (Instr.pop false 8).wellFormed = false := by decide
theorem test_wf_refuses_add_operand0 : (Instr.add false 8 7).wellFormed = false := by decide
theorem test_wf_refuses_add_operand1 : (Instr.add false 7 8).wellFormed = false := by decide
theorem test_wf_refuses_mul_operand0 : (Instr.mul false 8 7).wellFormed = false := by decide
theorem test_wf_refuses_mul_operand1 : (Instr.mul false 7 8).wellFormed = false := by decide
theorem test_wf_takes_literal_above_7 : (Instr.loadImmediate false 7 255).wellFormed = true := by decide

/-! ### Decoding: bits written out as `[op-count:2][alu:1][pc-ctrl:1][opcode:4]` from rule R81 and rule R85 -/

theorem test_decode_halt : decode [0b00_0_0_0001] = .ok (.halt false, []) := by decide
theorem test_decode_halt_pcc : decode [0b00_0_1_0001] = .ok (.halt true, []) := by decide
theorem test_decode_load :
    decode [0b10_0_0_0010, 0b00000011, 0b00001000] = .ok (.loadImmediate false 3 8, []) := by decide
theorem test_decode_print : decode [0b01_0_0_0111, 0b00000111] = .ok (.printRegister false 7, []) := by decide
theorem test_decode_push : decode [0b01_0_0_0101, 0b00000001] = .ok (.push false 1, []) := by decide
theorem test_decode_pop : decode [0b01_0_1_0110, 0b00000010] = .ok (.pop true 2, []) := by decide
theorem test_decode_add :
    decode [0b10_1_0_0000, 0b00000001, 0b00000010] = .ok (.add false 1 2, []) := by decide
theorem test_decode_mul :
    decode [0b10_1_0_0010, 0b00000001, 0b00000010] = .ok (.mul false 1 2, []) := by decide

/-- The 42 bytes of table VD that raise IllegalEncoding, in full. -/
theorem test_illegal_encodings_listed :
    (List.range 256).filter (fun n => select (decodeByte (BitVec.ofNat 8 n)) = .error .illegalEncoding) =
      [0x02, 0x05, 0x06, 0x07, 0x12, 0x15, 0x16, 0x17, 0x20, 0x22, 0x30, 0x32, 0x41, 0x42, 0x51, 0x52, 0x60, 0x62,
       0x70, 0x72, 0x81, 0x85, 0x86, 0x87, 0x91, 0x95, 0x96, 0x97, 0xC1, 0xC2, 0xC5, 0xC6, 0xC7, 0xD1, 0xD2, 0xD5,
       0xD6, 0xD7, 0xE0, 0xE2, 0xF0, 0xF2] := by decide

/-- Table words: the row's bits alone, operand bytes zero, and a whole word with its operands. -/
theorem test_table_word_opcode_only : decodeTableWord 8 0x82 = some (.loadImmediate false 0 0) := by decide
theorem test_table_word_with_operands : decodeTableWord 24 0x0100A2 = some (.mul false 0 1) := by decide

/-! ### One step each, from part 2 of the vectors -/

/-- VE3: HALT in the last cell halts and the pc stays. -/
theorem test_step_halt_last_cell :
    (after (step (start 255 [0x01]))).runState = .halted ∧ (after (step (start 255 [0x01]))).pc = 255 := by decide

/-- VE8, VE6: HALT's identity with another count, and with the ALU flag. -/
theorem test_step_halt_identity_faults :
    (after (step (start 0 [0x81]))).fault = some (.illegalEncoding 0x81 0) ∧
    (after (step (start 0 [0x21]))).fault = some (.unsupportedOperation 0x21 0) := by decide

/-- VL2, VL11: the stack pointer is an ordinary target; an instruction may end in cell 255. -/
theorem test_step_load :
    (after (step (start 0 [0x82, 0x07, 0xFF]))).reg 7 = 0xFF ∧
    (after (step (start 253 [0x82, 0x00, 0x08]))).pc = 256 := by decide

/-- VL8, VL9: the index is range-checked; the operand fetch leaves memory. -/
theorem test_step_load_faults :
    (after (step (start 0 [0x82, 0xFF, 0x01]))).fault = some (.registerIndexOutOfRange 0 0xFF 0x82 0) ∧
    (after (step (start 254 [0x82, 0x00, 0x08]))).fault = some (.outOfBounds 256 254) := by decide

/-- VL13, VL16: the stack pointer after reset; the pc-control bit set. -/
theorem test_step_print :
    (after (step (start 0 [0x47, 0x07]))).out = [244] ∧
    (after (step (start 0 [0x57, 0x01] [(1, 0x64)]))).out = [100] := by decide

/-- VS1, VS2: the first push after reset; the lowest legal push, into a cell at 0. -/
theorem test_step_push :
    memRead (after (step (start 0 [0x45, 0x00] [(0, 0x2A)]))).mem 0xF3 = some 0x2A ∧
    memRead (after (step (start 16 [0x45, 0x00] [(0, 0x2A), (7, 1)]))).mem 0 = some 0x2A := by decide

/-- VS4, VS3: register 7 stores the lowered pointer; a pointer at 0 faults. -/
theorem test_step_push_corners :
    memRead (after (step (start 0 [0x45, 0x07]))).mem 0xF3 = some 0xF3 ∧
    (after (step (start 16 [0x45, 0x00] [(7, 0)]))).fault = some (.stackPointerOutOfRange 0x45 16 0) := by decide

/-- VS15, VS16: the highest legal pop of another register; register 7 from a pointer at 255. -/
theorem test_step_pop :
    (after (step (cell 0xFE 0x33 (start 2 [0x46, 0x01] [(7, 0xFE)])))).reg 7 = 0xFF ∧
    (after (step (cell 0xFF 0x10 (start 2 [0x46, 0x07] [(7, 0xFF)])))).reg 7 = 0x11 := by decide

/-- VS14, VS17: a pointer at 255; a loaded pointer of 255. -/
theorem test_step_pop_faults :
    (after (step (cell 0xFF 0x33 (start 2 [0x46, 0x01] [(7, 0xFF)])))).fault =
      some (.stackPointerOutOfRange 0x46 2 255) ∧
    (after (step (cell 0x80 0xFF (start 2 [0x46, 0x07] [(7, 0x80)])))).reg 7 = 0x80 := by decide

/-- VA5, VA7: the same register twice; the operands in the other order. -/
theorem test_step_add :
    (after (step (start 0 [0xA0, 0x02, 0x02] [(2, 0x7F)]))).reg 2 = 0xFE ∧
    (after (step (start 0 [0xA0, 0x01, 0x00] [(0, 5), (1, 6)]))).reg 1 = 0x0B := by decide

/-- VA4, VA13: the exact sum is recorded; operand 0 is reported when both are out of range. -/
theorem test_step_add_faults :
    (after (step (start 0 [0xA0, 0x00, 0x01] [(0, 0xC8), (1, 0x64)]))).fault =
      some (.arithmeticOverflow 0xA0 0 300) ∧
    (after (step (start 0 [0xA0, 0x09, 0x0A]))).fault = some (.registerIndexOutOfRange 0 9 0xA0 0) := by decide

/-- VA17, VA19: a product of exactly 255; a square. -/
theorem test_step_mul :
    (after (step (start 0 [0xA2, 0x00, 0x01] [(0, 0x11), (1, 0x0F)]))).reg 0 = 0xFF ∧
    (after (step (start 0 [0xA2, 0x03, 0x03] [(3, 0x0F)]))).reg 3 = 0xE1 := by decide

/-- VA22, VA26: the largest product; operand 1 out of range. -/
theorem test_step_mul_faults :
    (after (step (start 0 [0xA2, 0x00, 0x01] [(0, 0xFF), (1, 0xFF)]))).fault =
      some (.arithmeticOverflow 0xA2 0 65025) ∧
    (after (step (start 0 [0xA2, 0x00, 0x08] [(0, 3)]))).fault =
      some (.registerIndexOutOfRange 1 8 0xA2 0) := by decide

/-- VE21, VE22: the same unknown opcode byte, with its operand bytes outside and inside memory. -/
theorem test_step_operand_fetch_first :
    (after (step (start 254 [0xC0]))).fault = some (.outOfBounds 256 254) ∧
    (after (step (start 252 [0xC0]))).fault = some (.dispatchError 0xC0 252) := by decide

/-- VE28: the opcode fetch at 256. -/
theorem test_step_fetch_at_256 : (after (step (start 256 []))).fault = some (.outOfBounds 256 256) := by decide

/-- The wrap rows of decisions D8 and D9, which are not in force: VA4, VA22 and VS3, VS14. -/
theorem test_wrap_policies :
    narrow .wrap 300 = some 0x2C ∧ narrow .wrap 65025 = some 0x01 ∧
    spDown .wrap 0 = some 0xFF ∧ spUp .wrap 255 = some 0x00 := by decide

/-- Rule R152 and the notes to table VL: the lines of 8, 244, 0. -/
theorem test_output_text : outputText [8, 244, 0] = [56, 10, 50, 52, 52, 10, 48, 10] := by decide

/-- Rule R204: the loader's bytes from address 0 (X7's program, loaded and not run). -/
theorem test_boot_loads : (after (boot [0x82, 0, 8, 0x47, 0, 1])).mem =
    ⟨[(0, 0x82), (2, 8), (3, 0x47), (5, 1)]⟩ := by decide

/-! ### Witnesses: states and operands that meet the hypotheses of each statement -/

theorem witness_push : (start 0 [] [(7, 1)]).reg spIndex ≠ 0 := by decide

theorem witness_pop : (0 : Fin 8) ≠ spIndex ∧ (start 0 [] [(7, 254)]).reg spIndex ≠ 255 := by decide

theorem witness_pop_sp :
    memRead (cell 255 254 (start 0 [] [(7, 255)])).mem
      (stackAddress ((cell 255 254 (start 0 [] [(7, 255)])).reg spIndex)) = some 254 ∧ (254 : Byte) ≠ 255 := by decide

theorem witness_add : ((start 0 [] [(0, 200), (1, 55)]).reg 0).toNat + ((start 0 [] [(0, 200), (1, 55)]).reg 1).toNat
    ≤ 255 := by decide

theorem witness_mul : ((start 0 [] [(0, 17), (1, 15)]).reg 0).toNat * ((start 0 [] [(0, 17), (1, 15)]).reg 1).toNat
    ≤ 255 := by decide

/-- Both operand orders answer a next state that has not faulted, for ADD and for MUL. -/
theorem witness_alu_commutes :
    let s := start 0 [] [(0, 17), (1, 15)]
    s.runState = .running ∧
    (after (finishStep 2 (exec (.add false (indexByte 0) (indexByte 1)) s))).reg 0 = 32 ∧
    (after (finishStep 2 (exec (.add true (indexByte 1) (indexByte 0)) s))).reg 1 = 32 ∧
    (after (finishStep 2 (exec (.mul false (indexByte 0) (indexByte 1)) s))).reg 0 = 255 ∧
    (after (finishStep 2 (exec (.mul false (indexByte 0) (indexByte 1)) s))).runState ≠ .faulted := by decide

theorem witness_push_pop : (6 : Fin 8) ≠ spIndex ∧ (0 : Fin 8) ≠ spIndex ∧ (start 0 [] [(7, 1)]).reg spIndex ≠ 0 := by
  decide

theorem witness_alu_overflow :
    let s := start 0 [] [(0, 255), (1, 1), (2, 16)]
    255 < (s.reg 0).toNat + (s.reg 1).toNat ∧ 255 < (s.reg 2).toNat * (s.reg 2).toNat := by decide

theorem witness_stack_faults :
    (start 0 [] [(7, 0)]).reg spIndex = 0 ∧ ((6 : Fin 8) ≠ spIndex ∧ (start 0 [] [(7, 255)]).reg spIndex = 255) ∧
    memRead (cell 128 255 (start 0 [] [(7, 128)])).mem
      (stackAddress ((cell 128 255 (start 0 [] [(7, 128)])).reg spIndex)) = some 255 := by decide

theorem witness_illegal_index :
    8 ≤ (8 : Byte).toNat ∧ (Instr.push false 8).registerOperands.head? = some 8 ∧
    8 ≤ (255 : Byte).toNat ∧ (Instr.add false (indexByte 7) 255).registerOperands = [indexByte 7, 255] := by decide

/-- A decodable byte with its bit 4 inverted, an instruction without and one with a fault, from no fault record. -/
theorem witness_pc_control :
    decode [0x82, 3, 8] = .ok (.loadImmediate false 3 8, []) ∧ State.reset.fault = none ∧
    (after (exec (.push false 0) State.reset)).fault = none ∧
    (after (exec (.push false 8) State.reset)).fault = some (.registerIndexOutOfRange 0 8 0x45 0) := by decide

/-- Also the witness of InstructionBytesLieAtPc. -/
theorem witness_step_runs :
    (start 253 [0xA0, 0, 1]).runState = .running ∧
    decode (codeAtPc (start 253 [0xA0, 0, 1])) = .ok (.add false 0 1, []) := by decide

theorem witness_opcode_fetch :
    (start 255 []).runState = .running ∧ (start 255 []).pc.toNat < 256 ∧ 256 ≤ (start 256 []).pc.toNat := by decide

theorem witness_operand_fetch :
    let s := start 255 [0x41]
    s.runState = .running ∧ memRead s.mem s.pc.toNat = some 0x41 ∧ (0x41 : Byte) &&& 0xEF ≠ 0x01 ∧
    256 ≤ s.pc.toNat + (0x41 : Byte).toNat / 64 := by decide

theorem witness_unknown_identity :
    let s := start 253 [0xA1, 0, 0]; let u := start 252 [0xC0]
    s.runState = .running ∧ memRead s.mem s.pc.toNat = some 0xA1 ∧ s.pc.toNat + (0xA1 : Byte).toNat / 64 < 256 ∧
    (0xA1 : Byte).toNat / 32 % 2 = 1 ∧ (0xA1 : Byte).toNat % 16 ∉ [0, 2] ∧
    u.runState = .running ∧ memRead u.mem u.pc.toNat = some 0xC0 ∧ u.pc.toNat + (0xC0 : Byte).toNat / 64 < 256 ∧
    (0xC0 : Byte).toNat / 32 % 2 = 0 ∧ (0xC0 : Byte).toNat % 16 ∉ [1, 2, 5, 6, 7] := by decide

theorem witness_wrong_count :
    let s := start 252 [0xC7, 0, 0, 0]
    s.runState = .running ∧ memRead s.mem s.pc.toNat = some 0xC7 ∧ s.pc.toNat + (0xC7 : Byte).toNat / 64 < 256 ∧
    (decodeByte 0xC7).alu = Operation.printRegister.row.alu ∧
    (decodeByte 0xC7).id = Operation.printRegister.row.id ∧
    (decodeByte 0xC7).count ≠ Operation.printRegister.row.count := by decide

theorem witness_halts :
    let s := start 255 [0x11]
    s.runState = .running ∧ memRead s.mem s.pc.toNat = some 0x11 ∧ (after (step s)).runState = .halted := by decide

theorem witness_successor :
    State.reset.runState = .running ∧ State.reset.halt.runState = .halted ∧
    (takeFault (.outOfBounds 256 256) State.reset).runState = .faulted := by decide

theorem witness_faulting_step :
    step (start 256 []) = .next (after (step (start 256 []))) ∧
    (after (step (start 256 []))).runState = .faulted := ⟨rfl, rfl⟩

/-- A step that ends at 256 and runs on, one that halts, one that faults. -/
theorem witness_pc_moves :
    step (start 253 [0xA0, 0, 1]) = .next (after (step (start 253 [0xA0, 0, 1]))) ∧
    (after (step (start 253 [0xA0, 0, 1]))).runState = .running ∧
    (after (step (start 0 [0x01]))).runState ≠ .running ∧ (after (step (start 0 [0x00]))).runState ≠ .running := by
  refine ⟨rfl, by decide, by decide, by decide⟩

/-- A PUSH at 252 that stores into cell 254, the next one fetched. -/
theorem witness_pushed_byte :
    let s := start 252 [0x45, 0] [(7, 255)]
    s.runState = .running ∧ decode (codeAtPc s) = .ok (.push false (indexByte 0), [0, 0]) ∧ s.reg spIndex ≠ 0 ∧
    stackAddress (s.reg spIndex - 1) = s.pc.toNat + 2 ∧ step s = .next (after (step s)) :=
  ⟨rfl, by decide, by decide, by decide, rfl⟩

theorem witness_named_register :
    (after (step (start 0 [0x46, 0x01]))).reg 7 ≠ (start 0 [0x46, 0x01]).reg 7 ∧
    step (start 0 [0x46, 0x01]) = .next (after (step (start 0 [0x46, 0x01]))) := ⟨by decide, rfl⟩

theorem witness_only_push_writes :
    step (start 0 [0x45, 0x07]) = .next (after (step (start 0 [0x45, 0x07]))) ∧
    (after (step (start 0 [0x45, 0x07]))).mem ≠ (start 0 [0x45, 0x07]).mem := ⟨rfl, by decide⟩

theorem witness_only_print_emits :
    step (start 0 [0x47, 0x07]) = .next (after (step (start 0 [0x47, 0x07]))) ∧
    (after (step (start 0 [0x47, 0x07]))).out ≠ [] := ⟨rfl, by decide⟩

/-- Two states that differ in both placeholders, and an instruction at the pc that names neither. -/
theorem witness_placeholders :
    AgreeButPlaceholders (start 0 [0x45, 0x04]) (start 0 [0x45, 0x04] [(5, 0xFF), (6, 0x01)]) ∧
    decode (codeAtPc (start 0 [0x45, 0x04])) = .ok (.push false 4, [0, 0]) ∧ ¬ NamesPlaceholder (.push false 4) ∧
    step (start 0 [0x45, 0x04]) = .next (after (step (start 0 [0x45, 0x04]))) := by
  refine ⟨⟨by decide, rfl, rfl, rfl, rfl, rfl⟩, by decide, ?_, rfl⟩
  unfold NamesPlaceholder
  decide

theorem witness_invariant :
    Inv (start 254 [0x45, 0x00]) ∧ step (start 254 [0x45, 0x00]) = .next (after (step (start 254 [0x45, 0x00]))) :=
  ⟨⟨by decide, by decide, by decide, fun r h => nomatch (show none = some r from h)⟩, rfl⟩

theorem witness_boot : boot [1] = .next (after (boot [1])) := rfl

theorem witness_run_ends : State.reset.runState = .running ∧ State.reset.pc.toNat ≤ 256 ∧
    (start 256 []).runState = .running ∧ (start 256 []).pc.toNat ≤ 256 := by decide

theorem witness_read :
    let m : Memory := ⟨[(0, 1), (255, 2)]⟩
    m.wf ∧ (255, (2 : Byte)) ∈ m.cells ∧ (254 < 256 ∧ 254 ∉ m.cells.map Prod.fst) ∧ 256 ≤ 256 := by decide

theorem witness_write : 255 < 256 ∧ 256 ≤ 256 := by decide

theorem witness_memories : (⟨[(0, 1)]⟩ : Memory).wf ∧ (setCell ⟨[(0, 1), (9, 9)]⟩ 9 0) = ⟨[(0, 1)]⟩ := by decide

theorem witness_loader :
    ((List.replicate 256 255).length ≤ 256 ∧ ∀ v ∈ List.replicate 256 255, v ≤ 255) ∧
    256 < (List.replicate 257 0).length ∧ (∃ v ∈ [0, 256], 255 < v) := by
  refine ⟨⟨(List.length_replicate ..).le, fun v hv => (List.eq_of_mem_replicate hv).le⟩, ?_, 256, by simp, by omega⟩
  rw [List.length_replicate]; omega

theorem witness_placed_word :
    decodeTableWord 24 0x0100A0 = some (.add false 0 1) ∧
    decodeTableWord 8 0x01 = some (.halt false) := by decide

/-- The word placed is the instruction run, also where it has to be moved (pc at 256, machine halted). -/
theorem test_placed_word_runs :
    (after (step (State.reset.withFetchWord 24 0x080382))).reg 3 = 8 ∧
    (after (step ((start 256 []).halt.withFetchWord 24 0x080382))).reg 3 = 8 := by decide

end Sys2Proof.Tests
end

/-! The registers and the pc over a whole step (spec/10_state.md): what makes each stage of a step answer as it
does, what a step that answers a state has done, and the statements O29, O31 and O34. -/

namespace Sys2Proof.Machine

/-! ### `exec` from the effects and faults of `exec_cases` -/

theorem exec_of_effect {s t : State} {i : Instr} (h : Effect s i t) : exec i s = .next t := by
  cases h with
  | halt p => rfl
  | load p i v => exact execLoadImmediate_eq p i v s
  | print p i => exact execPrintRegister_eq p i s
  | push p i h => exact execPush_eq p h
  | pop p i h => exact execPop_eq p h
  | add p i j h => exact aluApply_eq h
  | mul p i j h => exact aluApply_eq (f := fun m n => m * n) h

/-- Operand 0 is resolved before anything else is looked at (rule R180). -/
theorem exec_illegal_index0 {i : Instr} {b : Byte} {tl : List Byte} (s : State)
    (hr : i.registerOperands = b :: tl) (h : 8 ≤ b.toNat) :
    exec i s = raise (.registerIndexOutOfRange 0 b i.opcodeByte s.pc) s := by
  cases i with
  | halt p => cases hr
  | loadImmediate | printRegister | push | pop | add | mul =>
    obtain ⟨rfl, -⟩ := List.cons.inj hr
    exact withReg_illegal h

/-- Only ADD and MUL have a second register operand. -/
theorem exec_illegal_index1 {i : Instr} {k : Fin 8} {b : Byte} (s : State)
    (hr : i.registerOperands = [indexByte k, b]) (h : 8 ≤ b.toNat) :
    exec i s = raise (.registerIndexOutOfRange 1 b i.opcodeByte s.pc) s := by
  cases i with
  | halt | loadImmediate | printRegister | push | pop => simp [Instr.registerOperands] at hr
  | add | mul =>
    obtain ⟨rfl, rfl⟩ : _ ∧ _ := by simpa [Instr.registerOperands] using hr
    exact (withReg_indexByte ..).trans (withReg_illegal h)

theorem exec_of_raises {s : State} {i : Instr} {r : FaultRecord} (h : Raises s i r) : exec i s = raise r s := by
  cases h with
  | index0 _ b tl hr h => exact exec_illegal_index0 s hr h
  | index1 _ k b hr h => exact exec_illegal_index1 s hr h
  | sum p i j h => exact aluApply_overflow h
  | product p i j h => exact aluApply_overflow (f := fun m n => m * n) h
  | pushAtZero p i h => exact execPush_atZero p h
  | popAtTop p i h => exact execPop_atTop p h

theorem Raises.recordPc_eq {s : State} {i : Instr} {r : FaultRecord} (h : Raises s i r) : recordPc r = s.pc := by
  cases h <;> rfl

/-! ### What a step does, from what lies at the pc -/

@[simp] theorem recordPc_rejectRecord (why : Reject) (ir : Byte) (p : Pc) : recordPc (rejectRecord why ir p) = p := by
  cases why <;> rfl

theorem decodeByte_count (b : Byte) : (decodeByte b).count.toNat = b.toNat / 64 := by
  revert b; decide

theorem finishStep_eq_next {c : Nat} {o : Result} {t : State} (h : finishStep c o = .next t) :
    ∃ t₀, o = .next t₀ ∧ t = advance c t₀ := by
  cases o with
  | next t₀ => exact ⟨t₀, rfl, (Host.Outcome.next.inj h).symm⟩
  | fault | refused => cases h

section
variable {s : State} (hrun : s.runState = .running)
include hrun

theorem step_of_pc_outside (h : memSize ≤ s.pc.toNat) : step s = raise (.outOfBounds s.pc.toNat s.pc) s := by
  simp [step, engineStep, hrun, fetchOpcode, memRead_of_ge _ h]

theorem step_of_fetchOpcode {ir : Byte} (hir : fetchOpcode s = some ir) : step s = afterFetch ir s := by
  simp [step, engineStep, hrun, hir]

theorem step_of_operands_outside {ir : Byte} (hir : fetchOpcode s = some ir)
    (hh : (decodeByte ir).isHalt = false) (h : memSize ≤ s.pc.toNat + (decodeByte ir).count.toNat) :
    step s = raise (.outOfBounds memSize s.pc) s := by
  have hpc : s.pc.toNat < memSize := memRead_eq_some_lt hir
  rw [step_of_fetchOpcode hrun hir]
  simp [afterFetch, hh, fetchOperands_error (m := s.mem) (n := (decodeByte ir).count.toNat)
    (show s.pc.toNat + 1 ≤ memSize from hpc) (by omega)]

theorem step_of_rejected {ir : Byte} {why : Reject} (hir : fetchOpcode s = some ir)
    (hfit : s.pc.toNat + (decodeByte ir).count.toNat < memSize) (hsel : select (decodeByte ir) = .error why) :
    step s = raise (rejectRecord why ir s.pc) s := by
  have hh : ¬ (decodeByte ir).isHalt = true := fun h => by simp [(isHalt_iff_select _).mp h] at hsel
  rw [step_of_fetchOpcode hrun hir]
  simp [afterFetch, hh, dispatchStage, hsel,
    fetchOperands_ok (show s.pc.toNat + 1 + (decodeByte ir).count.toNat ≤ memSize by omega)]

/-- With its bytes inside memory, the decoded instruction is executed: the other stages cannot end the step. -/
theorem step_of_decode {ir : Byte} {i : Instr} {rest : List Byte} (hir : fetchOpcode s = some ir)
    (hfit : s.pc.toNat + (decodeByte ir).count.toNat < memSize) (hdec : decode (codeAtPc s) = .ok (i, rest)) :
    step s = finishStep (decodeByte ir).count.toNat (exec i s) := by
  have same {ir' : Byte} (hir' : fetchOpcode s = some ir') : ir = ir' := Option.some.inj (hir.symm.trans hir')
  rcases step_cases hrun with ⟨h, -⟩ | ⟨ir', hir', -, -, h, -⟩ | ⟨ir', why, hir', -, h, -⟩ |
    ⟨ir', i', rest', hir', -, -, hdec', e⟩
  · omega
  · obtain rfl := same hir'
    omega
  · obtain rfl := same hir'
    obtain ⟨b, tl, op, hcode, hsel, -⟩ := decode_eq_ok (codeAtPc_cons hir ▸ hdec)
    simp [← (List.cons.inj hcode).1, h] at hsel
  · obtain rfl := same hir'
    obtain ⟨rfl, -⟩ := Prod.mk.inj (Except.ok.inj (hdec.symm.trans hdec'))
    exact e

end

/-- What a step that answers a state has done: taken a fault whose record names the pc, or had the effect of the
instruction at the pc and then moved the pc past it, unless it halted (rule R110, rule R119, rule R177). -/
theorem step_next_cases {s t : State} (h : step s = .next t) :
    (∃ r, recordPc r = s.pc ∧ t = takeFault r s) ∨
    (∃ ir i rest e, fetchOpcode s = some ir ∧ s.pc.toNat + (decodeByte ir).count.toNat < memSize ∧
      decode (codeAtPc s) = .ok (i, rest) ∧ Effect s i e ∧ t = advance (decodeByte ir).count.toNat e) := by
  have hfault {r : FaultRecord} (hr : recordPc r = s.pc) (e : step s = raise r s) :
      ∃ r, recordPc r = s.pc ∧ t = takeFault r s :=
    ⟨r, hr, Host.Outcome.next.inj (h.symm.trans e)⟩
  rcases step_cases (running_of_step_next h) with ⟨-, e⟩ | ⟨-, -, -, -, -, e⟩ | ⟨ir, why, -, -, -, e⟩ |
    ⟨ir, i, rest, hir, hfit, -, hdec, e⟩
  · exact .inl (hfault rfl e)
  · exact .inl (hfault rfl e)
  · exact .inl (hfault (recordPc_rejectRecord why ir s.pc) e)
  · rcases exec_cases i s with ⟨t', heff, hexec⟩ | ⟨r, hr, hexec⟩
    · rw [hexec, finishStep_next] at e
      exact .inr ⟨ir, i, rest, t', hir, hfit, hdec, heff, Host.Outcome.next.inj (h.symm.trans e)⟩
    · rw [hexec, finishStep_raise] at e
      exact .inl (hfault hr.recordPc_eq e)

/-! ### The pc -/

theorem exec_pc {i : Instr} {s t : State} (h : exec i s = .next t) : t.pc = s.pc := by
  rcases exec_cases i s with ⟨t', heff, e⟩ | ⟨r, -, e⟩
  · obtain rfl := Host.Outcome.next.inj (h.symm.trans e)
    exact heff.control.1
  · obtain rfl := Host.Outcome.next.inj (h.symm.trans e)
    rfl

/-- The pc's advance does not wrap where the instruction's bytes lie inside memory (rule R28). -/
theorem advance_pc_toNat {c : Nat} {t : State} (h : t.runState = .running) (hfit : t.pc.toNat + c < memSize) :
    (advance c t).pc.toNat = t.pc.toNat + c + 1 := by
  simp only [memSize] at hfit
  simp [advance_running h]
  omega

/-- Settles O29: `exec` keeps the pc, and the advance at the end of a step is its only write. -/
theorem pcMovesPastInstructionOnly : Obligations.PcMovesPastInstructionOnly := by
  refine ⟨fun _ _ _ => exec_pc, fun s t h => ?_⟩
  rcases step_next_cases h with ⟨r, -, rfl⟩ | ⟨ir, i, rest, e, hir, hfit, -, heff, rfl⟩
  · exact ⟨nofun, fun _ => rfl⟩
  · have hpc : e.pc = s.pc := heff.control.1
    simp only [advance_runState]
    constructor
    · intro hrun
      have hmoved := advance_pc_toNat hrun (hpc ▸ hfit)
      have hcount := decodeByte_count ir
      simp only [hpc, memSize] at hmoved hfit
      exact ⟨ir, hir, by omega, by omega⟩
    · intro hend
      rw [advance_ended hend, hpc]

/-! ### The registers a step writes -/

theorem Effect.reg_of_not_writable {s t : State} {i : Instr} {k : Fin 8} (h : Effect s i t)
    (hk : indexByte k ∉ writableRegs i) : t.reg k = s.reg k := by
  have ne_of_indexByte_ne {j : Fin 8} (hj : indexByte k ≠ indexByte j) : j ≠ k := fun e => hj (e ▸ rfl)
  cases h with
  | halt | print => simp
  | load | push | add | mul =>
    exact reg_setReg_other _ _ (ne_of_indexByte_ne (by simpa [writableRegs] using hk))
  | pop p i =>
    obtain ⟨hi, hsp⟩ : _ ∧ _ := by simpa [writableRegs] using hk
    rw [reg_setReg_other _ _ (ne_of_indexByte_ne hsp), reg_setReg_other _ _ (ne_of_indexByte_ne hi)]

/-- Settles O31: a fault and the pc's advance write no register, and an effect only the registers it may. -/
theorem stepWritesOnlyNamedRegisters : Obligations.StepWritesOnlyNamedRegisters := by
  intro s t k h hne
  rcases step_next_cases h with ⟨r, -, rfl⟩ | ⟨ir, i, rest, e, -, -, hdec, heff, rfl⟩
  · exact absurd (takeFault_reg r s k) hne
  · refine ⟨i, rest, hdec, ?_⟩
    by_contra hk
    exact hne ((advance_reg _ e k).trans (heff.reg_of_not_writable hk))

/-- A register an instruction may write is one it names, or the stack pointer. -/
theorem mem_registerOperands_of_writable {i : Instr} {b : Byte} (h : b ∈ writableRegs i) :
    b ∈ i.registerOperands ∨ b = indexByte spIndex := by
  cases i with
  | halt | printRegister => cases h
  | loadImmediate => exact .inl h
  | push => exact .inr (List.mem_singleton.mp h)
  | pop => simpa [writableRegs, Instr.registerOperands] using h
  | add | mul => exact .inl (List.mem_singleton.mp h ▸ List.mem_cons_self)

theorem step_samePlaceholders {s t : State}
    (hn : ∀ i rest, decode (codeAtPc s) = .ok (i, rest) → ¬ NamesPlaceholder i) (h : step s = .next t) :
    SamePlaceholders s t := by
  have kept {k : Fin 8} (hsp : k ≠ spIndex)
      (hk : ∀ i : Instr, indexByte k ∈ i.registerOperands → NamesPlaceholder i) : t.reg k = s.reg k := by
    by_contra hne
    obtain ⟨i, rest, hdec, hw⟩ := stepWritesOnlyNamedRegisters s t k h hne
    rcases mem_registerOperands_of_writable hw with hop | heq
    · exact hn i rest hdec (hk i hop)
    · exact hsp (indexByte_injective heq)
  exact ⟨kept (by decide) fun _ => .inl, kept (by decide) fun _ => .inr⟩

/-! ### Two states that differ at most in registers 5 and 6 -/

namespace AgreeButPlaceholders
variable {s u : State}

theorem sp_eq (h : AgreeButPlaceholders s u) : s.reg spIndex = u.reg spIndex :=
  h.1 spIndex (by decide) (by decide)

/-- A register that an instruction names reads the same in both states. -/
theorem operand_eq {i : Instr} {k : Fin 8} (h : AgreeButPlaceholders s u) (hn : ¬ NamesPlaceholder i)
    (hk : indexByte k ∈ i.registerOperands) : s.reg k = u.reg k :=
  h.1 k (fun e => hn (.inl (e ▸ hk))) (fun e => hn (.inr (e ▸ hk)))

theorem operands_eq {i : Instr} {j k : Fin 8} (h : AgreeButPlaceholders s u) (hn : ¬ NamesPlaceholder i)
    (ho : i.registerOperands = [indexByte j, indexByte k]) : s.reg j = u.reg j ∧ s.reg k = u.reg k :=
  ⟨h.operand_eq hn (by simp [ho]), h.operand_eq hn (by simp [ho])⟩

theorem setReg_both (h : AgreeButPlaceholders s u) (i : Fin 8) (v : Byte) :
    AgreeButPlaceholders (s.setReg i v) (u.setReg i v) := by
  obtain ⟨hreg, hrest⟩ := h
  exact ⟨fun k h5 h6 => by simp [hreg k h5 h6], hrest⟩

theorem setPc_both (h : AgreeButPlaceholders s u) (p : Pc) : AgreeButPlaceholders (s.setPc p) (u.setPc p) := by
  obtain ⟨hreg, -, hrest⟩ := h
  exact ⟨hreg, rfl, hrest⟩

theorem setMem_both (h : AgreeButPlaceholders s u) (m : Memory) : AgreeButPlaceholders (s.setMem m) (u.setMem m) := by
  obtain ⟨hreg, hpc, hrun, hfault, hout, -⟩ := h
  exact ⟨hreg, hpc, hrun, hfault, hout, rfl⟩

theorem emit_both (h : AgreeButPlaceholders s u) (v : Byte) : AgreeButPlaceholders (s.emit v) (u.emit v) := by
  obtain ⟨hreg, hpc, hrun, hfault, hout, hmem⟩ := h
  exact ⟨hreg, hpc, hrun, hfault, by simp [hout], hmem⟩

theorem halt_both (h : AgreeButPlaceholders s u) : AgreeButPlaceholders s.halt u.halt := by
  obtain ⟨hreg, hpc, -, hrest⟩ := h
  exact ⟨hreg, hpc, rfl, hrest⟩

theorem takeFault_both (h : AgreeButPlaceholders s u) (r : FaultRecord) :
    AgreeButPlaceholders (takeFault r s) (takeFault r u) := by
  obtain ⟨hreg, hpc, -, -, hrest⟩ := h
  exact ⟨hreg, hpc, rfl, rfl, hrest⟩

theorem advance_both (h : AgreeButPlaceholders s u) (c : Nat) :
    AgreeButPlaceholders (advance c s) (advance c u) := by
  have ⟨_, hpc, hrun, _⟩ := h
  by_cases hs : s.runState = .running
  · rw [advance_running hs, advance_running (hrun ▸ hs), hpc]
    exact h.setPc_both _
  · rwa [advance_ended hs, advance_ended (hrun ▸ hs)]

theorem popPointer_eq (h : AgreeButPlaceholders s u) (i : Fin 8) : popPointer i s = popPointer i u := by
  have ⟨_, _, _, _, _, hmem⟩ := h
  simp only [popPointer, h.sp_eq, hmem]

/-- An instruction's effect reads registers only by name, the stack pointer apart. -/
theorem exists_effect {t : State} {i : Instr} (h : AgreeButPlaceholders s u) (hn : ¬ NamesPlaceholder i)
    (heff : Effect s i t) : ∃ t', Effect u i t' ∧ AgreeButPlaceholders t t' := by
  have ⟨_, _, _, _, _, hmem⟩ := h
  cases heff with
  | halt p => exact ⟨_, .halt p, h.halt_both⟩
  | load p i v => exact ⟨_, .load p i v, h.setReg_both i v⟩
  | print p i =>
    rw [h.operand_eq hn (k := i) List.mem_cons_self]
    exact ⟨_, .print p i, h.emit_both _⟩
  | push p i hsp =>
    have hi := (h.setReg_both spIndex (u.reg spIndex - 1)).operand_eq hn (k := i) List.mem_cons_self
    rw [h.sp_eq] at hsp ⊢
    rw [hmem, hi]
    exact ⟨_, .push p i hsp, (h.setReg_both _ _).setMem_both _⟩
  | pop p i hp =>
    rw [h.popPointer_eq i] at hp ⊢
    rw [hmem, h.sp_eq]
    exact ⟨_, .pop p i hp, (h.setReg_both _ _).setReg_both _ _⟩
  | add p i j hle =>
    obtain ⟨hi, hj⟩ := h.operands_eq hn rfl
    rw [hi, hj] at hle ⊢
    exact ⟨_, .add p i j hle, h.setReg_both _ _⟩
  | mul p i j hle =>
    obtain ⟨hi, hj⟩ := h.operands_eq hn rfl
    rw [hi, hj] at hle ⊢
    exact ⟨_, .mul p i j hle, h.setReg_both _ _⟩

/-- An instruction's fault and its record do not depend on a register it does not name, the stack pointer apart. -/
theorem raises {i : Instr} {r : FaultRecord} (h : AgreeButPlaceholders s u) (hn : ¬ NamesPlaceholder i)
    (hr : Raises s i r) : Raises u i r := by
  have ⟨_, hpc, _⟩ := h
  cases hr with
  | index0 _ b tl hr hb => exact hpc ▸ .index0 i b tl hr hb
  | index1 _ k b hr hb => exact hpc ▸ .index1 i k b hr hb
  | sum p i j hgt =>
    obtain ⟨hi, hj⟩ := h.operands_eq hn rfl
    rw [hi, hj] at hgt ⊢
    exact hpc ▸ .sum p i j hgt
  | product p i j hgt =>
    obtain ⟨hi, hj⟩ := h.operands_eq hn rfl
    rw [hi, hj] at hgt ⊢
    exact hpc ▸ .product p i j hgt
  | pushAtZero p i hsp => exact hpc ▸ .pushAtZero p i (h.sp_eq ▸ hsp)
  | popAtTop p i hp => exact hpc ▸ .popAtTop p i (h.popPointer_eq i ▸ hp)

theorem exec_next {t : State} {i : Instr} (h : AgreeButPlaceholders s u) (hn : ¬ NamesPlaceholder i)
    (he : exec i s = .next t) : ∃ t', exec i u = .next t' ∧ AgreeButPlaceholders t t' := by
  rcases exec_cases i s with ⟨t₀, heff, e⟩ | ⟨r, hr, e⟩ <;> obtain rfl := Host.Outcome.next.inj (he.symm.trans e)
  · obtain ⟨t', heff', hag⟩ := h.exists_effect hn heff
    exact ⟨t', exec_of_effect heff', hag⟩
  · exact ⟨_, exec_of_raises (h.raises hn hr), h.takeFault_both r⟩

theorem codeAtPc_eq (h : AgreeButPlaceholders s u) : codeAtPc s = codeAtPc u := by
  have ⟨_, hpc, _, _, _, hmem⟩ := h
  simp only [codeAtPc, hpc, hmem]

theorem fetchOpcode_eq (h : AgreeButPlaceholders s u) : fetchOpcode s = fetchOpcode u := by
  have ⟨_, hpc, _, _, _, hmem⟩ := h
  simp only [fetchOpcode, hpc, hmem]

theorem step_next {t : State} (h : AgreeButPlaceholders s u)
    (hn : ∀ i rest, decode (codeAtPc s) = .ok (i, rest) → ¬ NamesPlaceholder i) (ht : step s = .next t) :
    ∃ t', step u = .next t' ∧ AgreeButPlaceholders t t' := by
  have ⟨_, hpc, hrun, _⟩ := h
  have hs : s.runState = .running := running_of_step_next ht
  have hu : u.runState = .running := hrun ▸ hs
  have hfault {r : FaultRecord} (es : step s = raise r s) (eu : step u = raise r u) :
      ∃ t', step u = .next t' ∧ AgreeButPlaceholders t t' := by
    obtain rfl := Host.Outcome.next.inj (ht.symm.trans es)
    exact ⟨_, eu, h.takeFault_both r⟩
  rcases step_cases hs with ⟨hpast, e⟩ | ⟨ir, hir, -, hh, hpast, e⟩ | ⟨ir, why, hir, hfit, hsel, e⟩ |
    ⟨ir, i, rest, hir, hfit, -, hdec, e⟩
  · rw [hpc] at hpast e
    exact hfault e (step_of_pc_outside hu hpast)
  · rw [hpc] at hpast e
    exact hfault e (step_of_operands_outside hu (h.fetchOpcode_eq ▸ hir) hh hpast)
  · rw [hpc] at hfit e
    exact hfault e (step_of_rejected hu (h.fetchOpcode_eq ▸ hir) hfit hsel)
  · obtain ⟨t₀, hexec, rfl⟩ := finishStep_eq_next (e.symm.trans ht)
    obtain ⟨t₀', hexec', hag⟩ := h.exec_next (hn i rest hdec) hexec
    have hstep := step_of_decode hu (h.fetchOpcode_eq ▸ hir) (hpc ▸ hfit) (h.codeAtPc_eq ▸ hdec)
    rw [hexec', finishStep_next] at hstep
    exact ⟨_, hstep, hag.advance_both _⟩

end AgreeButPlaceholders

/-- Settles O34: the two steps take the same stage and do the same there, and by O31 neither writes 5 or 6. -/
theorem placeholderRegistersAreInert : Obligations.PlaceholderRegistersAreInert := by
  intro s u s' h hn hs
  obtain ⟨u', hu, hag⟩ := h.step_next hn hs
  exact ⟨u', hu, hag, step_samePlaceholders hn hs, step_samePlaceholders (h.codeAtPc_eq ▸ hn) hu⟩

end Sys2Proof.Machine

/-! Memory (spec/20_memory.md): what a read returns and what a write changes, which instruction changes memory or the
output log in a step, and that a stored byte can be the next one fetched; the statements O30, O32, O33, O38 and O39. -/

namespace Sys2Proof.Machine

/-! ### Reads and writes -/

/-- In a rising list a listed cell is the one its address finds (rule R50). -/
theorem lookupCell_of_mem {cs : List Host.Cell} {a : Nat} {v : Byte} (hs : cs.Pairwise (fun c d => c.1 < d.1))
    (h : (a, v) ∈ cs) : lookupCell cs a = v := by
  induction cs with
  | nil => cases h
  | cons c cs ih =>
    obtain ⟨hlt, hs⟩ := List.pairwise_cons.mp hs
    rcases List.mem_cons.mp h with rfl | h
    · exact if_pos rfl
    · exact (if_neg (hlt _ h).ne).trans (ih hs h)

theorem lookupCell_of_unlisted {cs : List Host.Cell} {a : Nat} (h : ∀ v, (a, v) ∉ cs) :
    lookupCell cs a = Memory.unlisted := by
  induction cs with
  | nil => rfl
  | cons c cs ih =>
    have hc : c.1 ≠ a := fun e => h c.2 (e ▸ List.mem_cons_self)
    exact (if_neg hc).trans (ih fun v hv => h v (List.mem_cons_of_mem c hv))

/-- Settles O38: a read is the lookup below 256, and the lookup finds the one listed cell or none. -/
theorem readReturnsCellContents : Obligations.ReadReturnsCellContents := by
  rintro m a ⟨hrising, hcells⟩
  refine ⟨fun v hv => ?_, fun ha hnone => ?_, memRead_of_ge m⟩
  · rw [memRead_of_lt m (hcells _ hv).1, lookupCell_of_mem hrising hv]
  · rw [memRead_of_lt m ha, lookupCell_of_unlisted hnone, Memory.unlisted]

/-- Settles O39: a write below 256 is `setCell`, whose read law says both halves. -/
theorem writeSetsOneCellOnly : Obligations.WriteSetsOneCellOnly := by
  refine fun m a v => ⟨fun ha => ⟨setCell m a v, memWrite_of_lt m v ha, ?_, fun b hb => ?_⟩, fun ha => ?_⟩
  · rw [memRead_setCell m a v ha, if_pos rfl]
  · rw [memRead_setCell m b v ha, if_neg hb]
  · exact if_neg (Nat.not_lt.mpr ha)

/-! ### Memory and the output log over a step -/

/-- Only PUSH has an effect on memory, and it sets the cell below the old stack pointer (rule R54). -/
theorem Effect.mem_cases {s t : State} {i : Instr} (h : Effect s i t) :
    t.mem = s.mem ∨ ∃ p k v, i = .push p (indexByte k) ∧ s.reg spIndex ≠ 0 ∧
      t.mem = setCell s.mem (stackAddress (s.reg spIndex - 1)) v := by
  cases h with
  | push p k hsp => exact .inr ⟨p, k, _, rfl, hsp, rfl⟩
  | halt | load | print | pop | add | mul => exact .inl rfl

/-- Only PRINT-REGISTER has an effect on the output log, and it appends its register's value (rule R67). -/
theorem Effect.out_cases {s t : State} {i : Instr} (h : Effect s i t) :
    t.out = s.out ∨ ∃ p k, i = .printRegister p (indexByte k) ∧ t.out = s.out ++ [s.reg k] := by
  cases h with
  | print p k => exact .inr ⟨p, k, rfl, rfl⟩
  | halt | load | push | pop | add | mul => exact .inl rfl

/-- Settles O32: a fault and the pc's advance keep memory, and an effect sets at most PUSH's cell. -/
theorem onlyPushWritesMemory : Obligations.OnlyPushWritesMemory := by
  intro s t h
  rcases step_next_cases h with ⟨r, -, rfl⟩ | ⟨ir, i, rest, e, -, -, hdec, heff, rfl⟩
  · exact .inl rfl
  · rw [advance_mem]
    rcases heff.mem_cases with hmem | ⟨p, k, v, rfl, hsp, hmem⟩
    · exact .inl hmem
    · refine .inr ⟨p, k, rest, hdec, hsp, fun a ha => ?_⟩
      rw [advance_mem, hmem, memRead_setCell _ a v (stackAddress_lt _), if_neg ha]

/-- Settles O33: a fault and the pc's advance keep the log, and an effect appends at most PRINT-REGISTER's value. -/
theorem onlyPrintRegisterEmits : Obligations.OnlyPrintRegisterEmits := by
  intro s t h
  rcases step_next_cases h with ⟨r, -, rfl⟩ | ⟨ir, i, rest, e, -, -, hdec, heff, rfl⟩
  · exact .inl rfl
  · rw [advance_out]
    rcases heff.out_cases with hout | ⟨p, k, rfl, hout⟩
    · exact .inl hout
    · exact .inr ⟨p, k, rest, hdec, hout⟩

/-! ### A pushed byte fetched next -/

/-- The bytes read from an address in memory end inside memory. -/
theorem add_length_bytesFrom_le (m : Memory) {a : Nat} (n : Nat) (ha : a ≤ memSize) :
    a + (bytesFrom m a n).length ≤ memSize := by
  induction n generalizing a with
  | zero => simpa [bytesFrom] using ha
  | succ n ih =>
    unfold bytesFrom
    split
    · simpa using ha
    · rename_i hread
      have := ih (a := a + 1) (memRead_eq_some_lt hread)
      rw [List.length_cons]
      omega

/-- What decodes at the pc has its opcode byte there and all its operand bytes inside memory (rule R80). -/
theorem fetch_of_decode {s : State} {i : Instr} {rest : List Byte} (hdec : decode (codeAtPc s) = .ok (i, rest)) :
    ∃ ir, fetchOpcode s = some ir ∧ decodeByte ir = i.descriptor ∧
      s.pc.toNat + i.descriptor.count.toNat < memSize := by
  obtain ⟨b, tl, op, hcode, hsel, hlen, hi, -⟩ := decode_eq_ok hdec
  cases hir : fetchOpcode s with
  | none =>
    have hread : memRead s.mem s.pc.toNat = none := hir
    simp [codeAtPc, bytesFrom, hread] at hcode
  | some ir =>
    have hpc : s.pc.toNat < memSize := memRead_eq_some_lt hir
    obtain ⟨rfl, rfl⟩ := List.cons.inj ((codeAtPc_cons hir).symm.trans hcode)
    have hbytes := add_length_bytesFrom_le s.mem 3 (show s.pc.toNat + 1 ≤ memSize from hpc)
    have hdesc : decodeByte ir = i.descriptor := by
      simpa [hi, Instr.descriptor] using select_eq_ok hsel
    exact ⟨ir, rfl, hdesc, by rw [← hdesc]; omega⟩

/-- A running machine steps by the effect of the instruction at the pc, when that instruction has one. -/
theorem step_of_effect {s e : State} {i : Instr} {rest : List Byte} (hrun : s.runState = .running)
    (hdec : decode (codeAtPc s) = .ok (i, rest)) (heff : Effect s i e) :
    step s = .next (advance i.descriptor.count.toNat e) := by
  obtain ⟨ir, hir, hdesc, hfit⟩ := fetch_of_decode hdec
  rw [step_of_decode hrun hir (hdesc ▸ hfit) hdec, exec_of_effect heff, finishStep_next, hdesc]

/-- After an instruction that leaves the machine running, the next opcode fetch reads the byte behind it (rule R119). -/
theorem fetchOpcode_advance {c : Nat} {e : State} (hrun : e.runState = .running) (hfit : e.pc.toNat + c < memSize) :
    fetchOpcode (advance c e) = memRead e.mem (e.pc.toNat + c + 1) := by
  rw [fetchOpcode, advance_pc_toNat hrun hfit, advance_mem]

/-- Settles O30: PUSH sets the cell at its pointer, and the pc's advance by 2 lands on that cell. -/
theorem pushedByteIsFetchedNext : Obligations.PushedByteIsFetchedNext := by
  intro s t p i rest hrun hdec hsp haddr h
  obtain ⟨-, -, -, hfit⟩ := fetch_of_decode hdec
  obtain rfl := Host.Outcome.next.inj (h.symm.trans (step_of_effect hrun hdec (.push p i hsp)))
  rw [fetchOpcode_advance]
  · rw [setMem_mem, memRead_setCell _ _ _ (stackAddress_lt _)]
    refine (if_pos haddr.symm).trans ?_
    simp only [reg_setReg, eq_comm]
  · exact hrun
  · exact hfit

end Sys2Proof.Machine

/-! The encoding (spec/30_encoding.md): an opcode byte and its four fields, decoding against encoding, the bytes of an
instruction in memory, and that the pc-control bit has no effect; the statements O1, O4, O19 and O21. -/

namespace Sys2Proof

/-! ### Opcode bytes and descriptors -/

/-- Each field is a slice of the byte, `decodeByte_count` for the operand count (rule R81). -/
theorem decodeByte_alu (b : Byte) : (decodeByte b).alu.toNat = b.toNat / 32 % 2 := by
  simp [decodeByte, BitVec.getLsbD, Nat.toNat_testBit]

theorem decodeByte_pcc (b : Byte) : (decodeByte b).pcc.toNat = b.toNat / 16 % 2 := by
  simp [decodeByte, BitVec.getLsbD, Nat.toNat_testBit]

theorem decodeByte_id (b : Byte) : (decodeByte b).id.toNat = b.toNat % 16 := by
  simp [decodeByte]

/-- The four fields fill the byte, so the formula of rule R82 never exceeds 255. -/
theorem toNat_encodeByte (d : Descriptor) :
    (encodeByte d).toNat = d.count.toNat * 64 + d.alu.toNat * 32 + d.pcc.toNat * 16 + d.id.toNat := by
  have hcount := d.count.isLt
  have halu := d.alu.toNat_lt
  have hpcc := d.pcc.toNat_lt
  have hid := d.id.isLt
  exact Nat.mod_eq_of_lt (by omega)

theorem bool_eq_of_toNat_eq {a b : Bool} (h : a.toNat = b.toNat) : a = b := by
  revert a b; decide

/-- A descriptor is determined by its fields as numbers. -/
theorem descriptor_ext {d e : Descriptor} (hc : d.count.toNat = e.count.toNat) (ha : d.alu.toNat = e.alu.toNat)
    (hp : d.pcc.toNat = e.pcc.toNat) (hi : d.id.toNat = e.id.toNat) : d = e := by
  cases d
  cases e
  rw [Descriptor.mk.injEq]
  exact ⟨BitVec.eq_of_toNat_eq hc, bool_eq_of_toNat_eq ha, bool_eq_of_toNat_eq hp, BitVec.eq_of_toNat_eq hi⟩

@[simp] theorem decodeByte_encodeByte (d : Descriptor) : decodeByte (encodeByte d) = d := by
  have hbyte := toNat_encodeByte d
  have halu := d.alu.toNat_lt
  have hpcc := d.pcc.toNat_lt
  have hid := d.id.isLt
  apply descriptor_ext
  · rw [Machine.decodeByte_count]; omega
  · rw [decodeByte_alu]; omega
  · rw [decodeByte_pcc]; omega
  · rw [decodeByte_id]; omega

/-- Settles O1: the fields as slices, and as digits of `encodeByte`'s sum they come back. -/
theorem descriptorFieldsAndRoundTrip : Obligations.DescriptorFieldsAndRoundTrip :=
  ⟨fun b => ⟨Machine.decodeByte_count b, decodeByte_alu b, decodeByte_pcc b, decodeByte_id b,
    encodeByte_decodeByte b⟩, decodeByte_encodeByte⟩

/-! ### Decoding and encoding -/

/-- Encoding, then decoding with any bytes behind: the opcode byte's own count splits them off (rule R84). -/
theorem decode_encode_append (i : Instr) (rest : List Byte) : decode (encode i ++ rest) = .ok (i, rest) := by
  have hsel : select (decodeByte i.opcodeByte) = .ok i.operation := by simp
  have hdec := decode_of_select (tl := i.operands ++ rest) hsel (by simp [length_operands])
  rwa [decodeByte_opcodeByte, ← length_operands, List.take_left, List.drop_left,
    show i.operation.toInstr i.descriptor.pcc i.operands = i from toInstr_operands i] at hdec

/-- A byte that selects an operation is the opcode byte of every instruction made from it. -/
theorem opcodeByte_toInstr {b : Byte} {op : Operation} (h : select (decodeByte b) = .ok op) (opnd : List Byte) :
    (op.toInstr (decodeByte b).pcc opnd).opcodeByte = b := by
  have hdesc : (op.toInstr (decodeByte b).pcc opnd).descriptor = decodeByte b := by
    simpa [Instr.descriptor] using (select_eq_ok h).symm
  rw [Instr.opcodeByte, hdesc, encodeByte_decodeByte]

theorem eq_encode_append_of_decode {bs rest : List Byte} {i : Instr} (h : decode bs = .ok (i, rest)) :
    bs = encode i ++ rest := by
  obtain ⟨b, tl, op, rfl, hsel, hlen, rfl, rfl⟩ := decode_eq_ok h
  have hcount : (decodeByte b).count = op.row.count := congrArg Descriptor.count (select_eq_ok hsel)
  rw [encode, opcodeByte_toInstr hsel, operands_toInstr _ (by rw [List.length_take_of_le hlen, hcount]),
    List.cons_append, List.take_append_drop]

/-- Settles O4, one direction per lemma. -/
theorem decodeAndEncodeAgree : Obligations.DecodeAndEncodeAgree :=
  fun _ rest i => ⟨eq_encode_append_of_decode, fun h => h ▸ decode_encode_append i rest⟩

/-! ### The pc-control bit in the encoding -/

theorem decodeByte_xor_pcc (b : Byte) :
    decodeByte (b ^^^ 0x10) = { decodeByte b with pcc := !(decodeByte b).pcc } := by
  revert b; decide

/-- Selection does not look at the pc-control bit (rule R88). -/
theorem select_with_pcc (d : Descriptor) (p : Bool) : select { d with pcc := p } = select d := rfl

@[simp] theorem registerOperands_withPcc (q : Bool) (i : Instr) :
    (i.withPcc q).registerOperands = i.registerOperands := by
  cases i <;> rfl

theorem operands_withPcc (q : Bool) (i : Instr) : (i.withPcc q).operands = i.operands := by
  cases i <;> rfl

theorem descriptor_withPcc (q : Bool) (i : Instr) : (i.withPcc q).descriptor = { i.descriptor with pcc := q } := by
  cases i <;> rfl

theorem opcodeByte_withPcc_not (i : Instr) : (i.withPcc (!i.pcc)).opcodeByte = i.opcodeByte ^^^ 0x10 := by
  rw [← encodeByte_decodeByte (i.opcodeByte ^^^ 0x10), decodeByte_xor_pcc, decodeByte_opcodeByte,
    Instr.opcodeByte, descriptor_withPcc]
  rfl

/-- By O4: only the first byte of the encoding has the bit. -/
theorem decode_xor_pcc {b : Byte} {tl rest : List Byte} {i : Instr} (h : decode (b :: tl) = .ok (i, rest)) :
    decode ((b ^^^ 0x10) :: tl) = .ok (i.withPcc (!i.pcc), rest) := by
  obtain ⟨rfl, rfl⟩ := List.cons.inj (eq_encode_append_of_decode h)
  rw [← opcodeByte_withPcc_not, ← operands_withPcc (!i.pcc)]
  exact decode_encode_append _ rest

end Sys2Proof

namespace Sys2Proof.Machine

/-! ### The pc-control bit in the execute stage -/

theorem Effect.withPcc {s t : State} {i : Instr} (h : Effect s i t) (q : Bool) : Effect s (i.withPcc q) t := by
  cases h with
  | halt => exact .halt q
  | load _ i v => exact .load q i v
  | print _ i => exact .print q i
  | push _ i h => exact .push q i h
  | pop _ i h => exact .pop q i h
  | add _ i j h => exact .add q i j h
  | mul _ i j h => exact .mul q i j h

/-- The same fault, its record naming the other opcode byte (rule R178). -/
theorem Raises.withPcc {s : State} {i : Instr} {r : FaultRecord} (h : Raises s i r) (q : Bool) :
    Raises s (i.withPcc q) (recordWithOpcode (i.withPcc q).opcodeByte r) := by
  cases h with
  | index0 _ b tl hr h => exact .index0 _ b tl (by simpa using hr) h
  | index1 _ k b hr h => exact .index1 _ k b (by simpa using hr) h
  | sum _ i j h => exact .sum q i j h
  | product _ i j h => exact .product q i j h
  | pushAtZero _ i h => exact .pushAtZero q i h
  | popAtTop _ i h => exact .popAtTop q i h

theorem exec_withPcc {i : Instr} {s t : State} (q : Bool) (hs : s.fault = none) (h : exec i s = .next t) :
    exec (i.withPcc q) s =
      .next { t with fault := t.fault.map (recordWithOpcode (i.withPcc q).opcodeByte) } := by
  rcases exec_cases i s with ⟨t', heff, e⟩ | ⟨r, hr, e⟩ <;> obtain rfl := Host.Outcome.next.inj (h.symm.trans e)
  · have hfault : t.fault = none := heff.control.2.trans hs
    rw [exec_of_effect (heff.withPcc q), hfault, Option.map_none, ← hfault]
  · exact exec_of_raises (hr.withPcc q)

/-- Settles O19: the bit inverts in the descriptor alone, where selection does not look, and effects ignore it. -/
theorem pcControlBitHasNoEffect : Obligations.PcControlBitHasNoEffect := by
  refine ⟨fun b => ?_, fun _ _ _ _ => decode_xor_pcc, fun _ q _ _ => exec_withPcc q⟩
  rw [decodeByte_xor_pcc, select_with_pcc]
  exact ⟨rfl, rfl⟩

/-! ### The bytes of an instruction in memory -/

/-- Memory holds the encoding of the decoded instruction from the pc upward (rule R80). -/
theorem memRead_of_decode {s : State} {i : Instr} {rest : List Byte} {k : Nat} {b : Byte}
    (hdec : decode (codeAtPc s) = .ok (i, rest)) (hk : (encode i)[k]? = some b) :
    memRead s.mem (s.pc.toNat + k) = some b := by
  obtain ⟨-, -, -, hfit⟩ := fetch_of_decode hdec
  have hlt : k < (encode i).length := (List.getElem?_eq_some_iff.mp hk).1
  have hle := count_le_three i.descriptor
  have hlen := length_encode i
  calc memRead s.mem (s.pc.toNat + k)
    _ = (codeAtPc s)[k]? := (getElem?_bytesFrom s.mem (n := 4) (by omega) (by omega)).symm
    _ = (encode i)[k]? := by rw [eq_encode_append_of_decode hdec, List.getElem?_append_left hlt]
    _ = some b := hk

/-- The opcode byte alone fixes the instruction's length (rule R84). -/
theorem length_encode_eq_opcodeByte (i : Instr) : (encode i).length = i.opcodeByte.toNat / 64 + 1 := by
  rw [length_encode, ← decodeByte_opcodeByte, decodeByte_count]

/-- Settles O21: the opcode byte is byte 0 of the encoding and operand `k` its byte `k + 1`. -/
theorem instructionBytesLieAtPc : Obligations.InstructionBytesLieAtPc := by
  intro s i rest hdec
  refine ⟨memRead_of_decode hdec (k := 0) rfl, fun k b hk => ?_, length_encode_eq_opcodeByte i, ?_, ?_⟩
  · rw [Nat.add_assoc, Nat.add_comm 1 k]
    exact memRead_of_decode hdec hk
  · rw [length_encode]
    exact Nat.le_add_left ..
  · rw [length_encode]
    exact Nat.succ_le_succ (count_le_three _)

end Sys2Proof.Machine

/-! The engine (spec/40_engine_and_halt.md): the opcode fetch, and a step as the execute stage of the instruction at
the pc and then the pc's advance; the statements O20 and O22. -/

namespace Sys2Proof.Machine

/-- A running machine executes the instruction at its pc; the advance is by that instruction's own count (rule R110). -/
theorem step_eq_finishStep_exec {s : State} {i : Instr} {rest : List Byte} (hrun : s.runState = .running)
    (hdec : decode (codeAtPc s) = .ok (i, rest)) : step s = finishStep i.descriptor.count.toNat (exec i s) := by
  obtain ⟨ir, hir, hdesc, hfit⟩ := fetch_of_decode hdec
  rw [step_of_decode hrun hir (hdesc ▸ hfit) hdec, hdesc]

/-- Settles O20: `exec` keeps the pc, so `advance`, which adds to the pc after `exec`, adds to the old one. -/
theorem stepRunsDecodedInstruction : Obligations.StepRunsDecodedInstruction := by
  intro s i rest hrun hdec
  rw [step_eq_finishStep_exec hrun hdec, length_encode]
  cases hexec : exec i s with
  | next t =>
    rw [← exec_pc hexec]
    rfl
  | fault | refused => rfl

/-- Settles O22: below 256 a read finds a byte, and at 256 and above the fetch itself raises the fault. -/
theorem opcodeFetchReadsAtPcOrFaults : Obligations.OpcodeFetchReadsAtPcOrFaults := by
  intro s hrun
  constructor
  · intro hinside
    have hread := memRead_of_lt s.mem hinside
    exact ⟨_, hread, step_of_fetchOpcode hrun hread⟩
  · intro houtside
    exact ⟨_, step_of_pc_outside hrun houtside, rfl, rfl⟩

end Sys2Proof.Machine

/-! The ALU's two instructions in either operand order, and the opcode bytes whose identity no row of the opcode table
has (spec/41_alu.md, spec/60_exceptions.md); the statements O13 and O24. -/

namespace Sys2Proof

/-! ### Identities that no row of the opcode table has -/

theorem row_id_mem (op : Operation) : op.row.id.toNat ∈ if op.row.alu then [0, 2] else [1, 2, 5, 6, 7] := by
  cases op <;> decide

/-- Without a row for the pair `(alu, id)` the ALU flag alone tells the rejection (rule R171, rule R172). -/
theorem select_of_no_row {d : Descriptor} (h : ∀ op : Operation, op.row.alu = d.alu → op.row.id ≠ d.id) :
    select d = .error (if d.alu then .unsupportedOperation else .dispatchError) := by
  have hnone : opcodeTable.find? (fun row => row.alu == d.alu && row.id == d.id) = none := by
    simpa [opcodeTable] using ⟨h .halt, h .loadImmediate, h .printRegister, h .push, h .pop, h .add, h .mul⟩
  simp only [select, hnone]

theorem select_of_unknown_identity {b : Byte} {alu : Bool} (halu : (decodeByte b).alu = alu)
    (hid : b.toNat % 16 ∉ if alu then [0, 2] else [1, 2, 5, 6, 7]) :
    select (decodeByte b) = .error (if alu then .unsupportedOperation else .dispatchError) := by
  subst halu
  refine select_of_no_row fun op hrowAlu hrowId => hid ?_
  rw [← decodeByte_id, ← hrowAlu, ← hrowId]
  exact row_id_mem op

end Sys2Proof

namespace Sys2Proof.Machine

/-- Settles O24: no row has the identity, so selection rejects the byte and the step raises the rejection's fault. -/
theorem unknownIdentityFaultsAtDispatch : Obligations.UnknownIdentityFaultsAtDispatch := by
  refine ⟨fun s ir hrun hir hfit => ?_, by decide⟩
  rw [← decodeByte_count] at hfit
  rw [← decodeByte_alu]
  constructor <;> intro hflag hid
  · have hsel := select_of_unknown_identity (Bool.toNat_eq_one.mp hflag) hid
    exact ⟨_, step_of_rejected hrun hir hfit hsel, rfl, rfl, fun _ _ => rfl⟩
  · have hsel := select_of_unknown_identity (Bool.toNat_eq_zero.mp hflag) hid
    exact ⟨_, step_of_rejected hrun hir hfit hsel, rfl, rfl, fun _ _ => rfl⟩

/-! ### ADD and MUL as one commutative operation -/

theorem exec_eq_aluApply_commutative {mk : Bool → Byte → Byte → Instr} (h : mk = Instr.add ∨ mk = Instr.mul) :
    ∃ f : Nat → Nat → Nat, (∀ m n, f m n = f n m) ∧
      ∀ p a b s, exec (mk p a b) s = aluApply f (mk p a b).opcodeByte a b s := by
  rcases h with rfl | rfl
  · exact ⟨fun m n => m + n, Nat.add_comm, fun _ _ _ _ => rfl⟩
  · exact ⟨fun m n => m * n, Nat.mul_comm, fun _ _ _ _ => rfl⟩

/-- The pc's advance in its 9 bits, wherever the pc is (rule R119). -/
theorem advance_pc_toNat_mod {c : Nat} {t : State} (h : t.runState = .running) :
    (advance c t).pc.toNat = (t.pc.toNat + (c + 1)) % 512 := by
  simp [advance_running h]

/-- Settles O13: both orders have the same exact result, so both overflow or both write it, each to its own first
register. -/
theorem aluCommutesAndWritesFirstOnly : Obligations.AluCommutesAndWritesFirstOnly := by
  intro mk hmk p q i j s t u hrun ht hu
  obtain ⟨f, hcomm, hexec⟩ := exec_eq_aluApply_commutative hmk
  have hswap : f (s.reg j).toNat (s.reg i).toNat = f (s.reg i).toNat (s.reg j).toNat := hcomm ..
  rw [hexec] at ht hu
  rcases Nat.lt_or_ge 255 (f (s.reg i).toNat (s.reg j).toNat) with hover | hfit
  · rw [aluApply_overflow hover, finishStep_raise] at ht
    rw [aluApply_overflow (hswap ▸ hover), finishStep_raise] at hu
    obtain rfl := Host.Outcome.next.inj ht
    obtain rfl := Host.Outcome.next.inj hu
    exact ⟨iff_of_true rfl rfl, fun hne => absurd rfl hne⟩
  · rw [aluApply_eq hfit, finishStep_next] at ht
    rw [aluApply_eq (hswap ▸ hfit), finishStep_next, hswap] at hu
    obtain rfl := Host.Outcome.next.inj ht
    obtain rfl := Host.Outcome.next.inj hu
    refine ⟨by simp, fun _ => ⟨by simp, ?_, ?_, advance_out .., advance_pc_toNat_mod hrun⟩⟩
    · intro k hk
      rw [advance_reg, reg_setReg_other _ _ (Ne.symm (List.mem_singleton.not.mp hk))]
    · intro a
      rw [advance_mem, setReg_mem]

end Sys2Proof.Machine

/-! What each instruction does and where it faults (spec/41_alu.md to spec/43_stack.md, spec/60_exceptions.md): the
statements O5 to O12 and O14 to O18. -/

namespace Sys2Proof.Machine

/-! ### Frames -/

theorem SameRegsBut.refl (written : List (Fin 8)) (s : State) : SameRegsBut written s s := fun _ _ => rfl

theorem SameRegsBut.setReg {written : List (Fin 8)} {s t : State} {i : Fin 8} (h : SameRegsBut written s t)
    (hi : i ∈ written) (v : Byte) : SameRegsBut written s (t.setReg i v) :=
  fun k hk => (reg_setReg_other t v (ne_of_mem_of_not_mem hi hk)).trans (h k hk)

/-- A register write changes that register and nothing else (rule R22). -/
theorem setReg_frame (s : State) (i : Fin 8) (v : Byte) :
    SameRegsBut [i] s (s.setReg i v) ∧ SameControl s (s.setReg i v) ∧ SameOut s (s.setReg i v) ∧
      SameMemory s (s.setReg i v) :=
  ⟨(SameRegsBut.refl [i] s).setReg List.mem_cons_self v, ⟨rfl, rfl, rfl⟩, rfl, fun _ => rfl⟩

/-! ### HALT, LOAD-IMMEDIATE and PRINT-REGISTER -/

/-- Settles O5: HALT's effect is the write of the run state. -/
theorem haltStopsInPlace : Obligations.HaltStopsInPlace :=
  fun p s => ⟨s.halt, exec_of_effect (.halt p), rfl, rfl, rfl, .refl [] s, rfl, fun _ => rfl⟩

/-- Settles O6: LOAD-IMMEDIATE's effect is one register write. -/
theorem loadImmediateSetsTargetOnly : Obligations.LoadImmediateSetsTargetOnly :=
  fun p i v s => ⟨_, exec_of_effect (.load p i v), reg_setReg_same s i v, setReg_frame s i v⟩

/-- Settles O7: PRINT-REGISTER's effect is one emitted value. -/
theorem printRegisterAppendsValue : Obligations.PrintRegisterAppendsValue :=
  fun p i s => ⟨_, exec_of_effect (.print p i), emit_out s _, .refl [] s, ⟨rfl, rfl, rfl⟩, fun _ => rfl⟩

/-! ### ADD and MUL -/

theorem toNat_reg_setReg_ofNat (s : State) (i : Fin 8) {n : Nat} (h : n ≤ 255) :
    ((s.setReg i (BitVec.ofNat 8 n)).reg i).toNat = n := by
  rw [reg_setReg_same, BitVec.toNat_ofNat]
  exact Nat.mod_eq_of_lt (Nat.lt_succ_of_le h)

/-- Settles O11: ADD's effect is one register write, and a sum of at most 255 is not narrowed. -/
theorem addWritesExactSum : Obligations.AddWritesExactSum :=
  fun p i j s h => ⟨_, exec_of_effect (.add p i j h), toNat_reg_setReg_ofNat s i h, setReg_frame s i _⟩

/-- Settles O12: MUL's effect is one register write, and a product of at most 255 is not narrowed. -/
theorem mulWritesExactProduct : Obligations.MulWritesExactProduct :=
  fun p i j s h => ⟨_, exec_of_effect (.mul p i j h), toNat_reg_setReg_ofNat s i h, setReg_frame s i _⟩

theorem opcodeByte_add (p : Bool) (a b : Byte) : (Instr.add p a b).opcodeByte = if p then 0xB0 else 0xA0 := by
  cases p <;> rfl

theorem opcodeByte_mul (p : Bool) (a b : Byte) : (Instr.mul p a b).opcodeByte = if p then 0xB2 else 0xA2 := by
  cases p <;> rfl

/-- Settles O15: the two overflow faults of `Raises`, with the opcode byte written out. -/
theorem aluOverflowTakesFault : Obligations.AluOverflowTakesFault := by
  refine fun p i j s => ⟨fun h => ?_, fun h => ?_⟩
  · rw [← opcodeByte_add]
    exact exec_of_raises (.sum p i j h)
  · rw [← opcodeByte_mul]
    exact exec_of_raises (.product p i j h)

/-! ### PUSH and POP -/

theorem popPointer_of_ne {i : Fin 8} (s : State) (h : i ≠ spIndex) : popPointer i s = s.reg spIndex := if_neg h

theorem lookupCell_of_memRead {m : Memory} {a : Nat} {v : Byte} (h : memRead m a = some v) :
    lookupCell m.cells a = v :=
  Option.some.inj ((memRead_of_lt m (memRead_eq_some_lt h)).symm.trans h)

theorem popPointer_spIndex {s : State} {v : Byte} (h : memRead s.mem (stackAddress (s.reg spIndex)) = some v) :
    popPointer spIndex s = v :=
  (if_pos rfl).trans (lookupCell_of_memRead h)

/-- Settles O8: PUSH's effect is the write of the pointer and of the cell it then names. -/
theorem pushStoresBelowPointer : Obligations.PushStoresBelowPointer := by
  intro p i s h
  refine ⟨_, exec_of_effect (.push p i h), reg_setReg_same .., (setReg_frame s spIndex _).1, ?_, fun a ha => ?_,
    ⟨rfl, rfl, rfl⟩, rfl⟩
  · rw [setMem_mem, memRead_setCell _ _ _ (stackAddress_lt _), if_pos rfl, reg_setReg]
    simp only [eq_comm]
  · rw [setMem_mem, memRead_setCell _ _ _ (stackAddress_lt _), if_neg ha]

/-- POP's two register writes change only its register and the pointer (rule R161). -/
theorem pop_frame (s : State) (i : Fin 8) (v sp : Byte) {written : List (Fin 8)} (hi : i ∈ written)
    (hsp : spIndex ∈ written) :
    SameRegsBut written s ((s.setReg i v).setReg spIndex sp) ∧ SameControl s ((s.setReg i v).setReg spIndex sp) ∧
      SameOut s ((s.setReg i v).setReg spIndex sp) ∧ SameMemory s ((s.setReg i v).setReg spIndex sp) :=
  ⟨((SameRegsBut.refl written s).setReg hi v).setReg hsp sp, ⟨rfl, rfl, rfl⟩, rfl, fun _ => rfl⟩

/-- Settles O9: the load of a register other than 7 leaves the pointer that is then raised. -/
theorem popLoadsThenRaisesPointer : Obligations.PopLoadsThenRaisesPointer := by
  intro p i s hi h
  have hptr := popPointer_of_ne s hi
  refine ⟨_, exec_of_effect (.pop p i (hptr ▸ h)), ?_, ?_, pop_frame s i _ _ (by simp) (by simp)⟩
  · rw [reg_setReg_other _ _ hi.symm, reg_setReg_same, memRead_of_lt _ (stackAddress_lt _)]
  · rw [reg_setReg_same, hptr]

/-- Settles O10: the pointer that POP of register 7 raises is the byte it has loaded. -/
theorem popOfStackPointerEndsAboveLoadedByte : Obligations.PopOfStackPointerEndsAboveLoadedByte := by
  intro p v s hload h
  have hptr := popPointer_spIndex hload
  refine ⟨_, exec_of_effect (.pop p spIndex (hptr ▸ h)), ?_, pop_frame s spIndex _ _ (by simp) (by simp)⟩
  rw [reg_setReg_same, hptr]

/-- Settles O14, from O8 and O9: POP loads the byte that PUSH stored and raises the pointer that PUSH lowered. -/
theorem pushThenPopRestoresPointer : Obligations.PushThenPopRestoresPointer := by
  intro p q i j s hi hj hsp
  obtain ⟨t, ht, htsp, htregs, hstored, htmem, ⟨htpc, htrun, htfault⟩, htout⟩ := pushStoresBelowPointer p i s hsp
  have htop : t.reg spIndex ≠ 255 := by
    rw [htsp]
    bv_omega
  obtain ⟨u, hu, hloaded, husp, huregs, ⟨hupc, hurun, hufault⟩, huout, humem⟩ :=
    popLoadsThenRaisesPointer q j t hj htop
  rw [if_neg hi] at hstored
  have hrestored : u.reg spIndex = s.reg spIndex := by rw [husp, htsp, BitVec.sub_add_cancel]
  refine ⟨t, u, ht, hu, ?_, hrestored, fun k hk => ?_, ?_, fun a ha => ?_, ⟨?_, ?_, ?_⟩, huout.trans htout⟩
  · exact Option.some.inj (hloaded.symm.trans (htsp ▸ hstored))
  · by_cases hksp : k = spIndex
    · rw [hksp, hrestored]
    · exact (huregs k (by simpa [hksp] using hk)).trans (htregs k (by simpa using hksp))
  · exact (humem _).trans hstored
  · exact (humem a).trans (htmem a ha)
  · exact hupc.trans htpc
  · exact hurun.trans htrun
  · exact hufault.trans htfault

theorem opcodeByte_push (p : Bool) (r : Byte) : (Instr.push p r).opcodeByte = if p then 0x55 else 0x45 := by
  cases p <;> rfl

theorem opcodeByte_pop (p : Bool) (r : Byte) : (Instr.pop p r).opcodeByte = if p then 0x56 else 0x46 := by
  cases p <;> rfl

/-- Settles O16: the two pointer faults of `Raises`; POP's pointer is register 7 or the byte loaded into it. -/
theorem stackPointerOutOfRangeTakesFault : Obligations.StackPointerOutOfRangeTakesFault := by
  intro p i s
  rw [← opcodeByte_push p (indexByte i)]
  refine ⟨fun h => exec_of_raises (.pushAtZero p i h), fun hi h => ?_, fun h => ?_⟩
  · rw [← opcodeByte_pop p (indexByte i)]
    exact exec_of_raises (.popAtTop p i ((popPointer_of_ne s hi).trans h))
  · rw [← opcodeByte_pop p (indexByte spIndex)]
    exact exec_of_raises (.popAtTop p spIndex (popPointer_spIndex h))

/-! ### Every instruction -/

/-- Settles O17, one operand position per lemma. -/
theorem illegalRegisterIndexTakesFaultFirst : Obligations.IllegalRegisterIndexTakesFaultFirst := by
  refine fun i s b hb => ⟨fun hhead => ?_, fun k hr => exec_illegal_index1 s hr hb⟩
  obtain ⟨tl, hr⟩ := List.head?_eq_some_iff.mp hhead
  exact exec_illegal_index0 s hr hb

/-- Settles O18: an effect leaves the pc and the record, and a fault is taken whole. -/
theorem everyInstructionAnswersNextState : Obligations.EveryInstructionAnswersNextState := by
  intro i s
  rcases exec_cases i s with ⟨t, heff, e⟩ | ⟨r, hr, e⟩
  · obtain ⟨hpc, hfault⟩ := heff.control
    exact ⟨t, e, hpc, .inl hfault⟩
  · exact ⟨_, e, rfl, .inr ⟨r, rfl, hr.recordPc_eq⟩⟩

end Sys2Proof.Machine

/-! Selection over the 256 opcode bytes (spec/30_encoding.md); the statements O2 and O3. -/

namespace Sys2Proof

/-- Settles O2: each list is an encoding and the bytes behind it. -/
theorem canonicalWordsDecode : Obligations.CanonicalWordsDecode :=
  ⟨decode_encode_append (.halt false) [0xAA], decode_encode_append (.loadImmediate false 3 8) [],
    decode_encode_append (.printRegister false 3) [], decode_encode_append (.push false 0) [],
    decode_encode_append (.pop false 1) [], decode_encode_append (.add false 0 1) [],
    decode_encode_append (.mul false 0 1) [], decode_encode_append (.loadImmediate true 4 0) [],
    decode_encode_append (.mul true 0 2) [0x57]⟩

/-- The descriptor of an operation's canonical opcode byte: its row, with the pc-control bit clear (rule R86). -/
def Operation.canonical (op : Operation) : Descriptor := ⟨op.row.count, op.row.alu, false, op.row.id⟩

theorem select_canonical (op : Operation) : select op.canonical = .ok op := by
  cases op <;> rfl

theorem decodeByte_mask_pcc (b : Byte) : decodeByte (b &&& 0xEF) = { decodeByte b with pcc := false } := by
  revert b; decide

/-- With the pc-control bit masked off, the operation's canonical byte is the only one that selects it (rule R88). -/
theorem selects_iff_mask (b : Byte) (op : Operation) :
    Machine.selects b op ↔ b &&& 0xEF = encodeByte op.canonical := by
  constructor
  · intro h
    rw [← encodeByte_decodeByte (b &&& 0xEF), decodeByte_mask_pcc, select_eq_ok h]
    rfl
  · intro h
    calc select (decodeByte b)
      _ = select { decodeByte b with pcc := false } := (select_with_pcc _ _).symm
      _ = select (decodeByte (b &&& 0xEF)) := by rw [decodeByte_mask_pcc]
      _ = .ok op := by rw [h, decodeByte_encodeByte, select_canonical]

/-- Settles O3: `encodeByte` evaluates to the seven canonical bytes, and the counts are over 256 closed cases. -/
theorem opcodeMapByMaskAndCounts : Obligations.OpcodeMapByMaskAndCounts := by
  refine ⟨fun b => ⟨selects_iff_mask b .halt, selects_iff_mask b .loadImmediate, selects_iff_mask b .printRegister,
    selects_iff_mask b .push, selects_iff_mask b .pop, selects_iff_mask b .add, selects_iff_mask b .mul⟩, ?_, ?_⟩
  · simp only [List.countP_eq_length_filter]
    decide
  · rw [List.countP_eq_length_filter]
    decide

/-- An operation's `(alu, id)` finds its row, and the row's count decides (rule R173). -/
theorem select_of_wrong_count {d : Descriptor} {op : Operation} (halu : d.alu = op.row.alu) (hid : d.id = op.row.id)
    (hcount : d.count ≠ op.row.count) : select d = .error .illegalEncoding := by
  have hfind : opcodeTable.find? (fun row => row.alu == d.alu && row.id == d.id) = some op.row := by
    rw [halu, hid]
    cases op <;> rfl
  simp only [select, hfind, if_neg hcount.symm]

end Sys2Proof

/-! The ends of a step (spec/40_engine_and_halt.md, spec/60_exceptions.md): the operand fetch past the end of memory,
the wrong operand count, the halt, and what a step that faults leaves; the statements O23 and O25 to O28. -/

namespace Sys2Proof.Machine

/-! ### HALT's bytes -/

theorem isHalt_iff_mask (b : Byte) : (decodeByte b).isHalt = true ↔ b &&& 0xEF = 0x01 :=
  (isHalt_iff_select _).trans (selects_iff_mask b .halt)

theorem mask_eq_one_iff (b : Byte) : b &&& 0xEF = 0x01 ↔ b = 0x01 ∨ b = 0x11 := by
  revert b; decide

/-- Settles O23: the halt test lets the byte through, and its operands reach past the end of memory. -/
theorem operandFetchPastEndFaultsFirst : Obligations.OperandFetchPastEndFaultsFirst := by
  intro s ir hrun hir hne hpast
  rw [← decodeByte_count] at hpast
  have hh : (decodeByte ir).isHalt = false := Bool.eq_false_iff.mpr (mt (isHalt_iff_mask ir).mp hne)
  exact step_of_operands_outside hrun hir hh hpast

/-- Settles O25: the row is found, so selection rejects the byte for its count. -/
theorem wrongOperandCountFaultsAtDispatch : Obligations.WrongOperandCountFaultsAtDispatch := by
  intro s ir op hrun hir hfit halu hid hcount
  rw [← decodeByte_count] at hfit
  exact step_of_rejected hrun hir hfit (select_of_wrong_count halu hid hcount)

theorem step_of_isHalt {s : State} {ir : Byte} (hrun : s.runState = .running) (hir : fetchOpcode s = some ir)
    (hh : (decodeByte ir).isHalt = true) : step s = .next s.halt := by
  rw [step_of_fetchOpcode hrun hir, afterFetch, if_pos hh]
  rfl

/-- The byte fetched at the pc has the fields of the instruction that decodes there. -/
theorem decodeByte_of_decode {s : State} {ir : Byte} {i : Instr} {rest : List Byte} (hir : fetchOpcode s = some ir)
    (hdec : decode (codeAtPc s) = .ok (i, rest)) : decodeByte ir = i.descriptor := by
  obtain ⟨b, hb, hdesc, -⟩ := fetch_of_decode hdec
  obtain rfl : ir = b := Option.some.inj (hir.symm.trans hb)
  exact hdesc

/-- A step halts only by HALT's effect: a fault ends in FAULTED and every other effect leaves the machine running. -/
theorem isHalt_of_step_halted {s t : State} {ir : Byte} (hir : fetchOpcode s = some ir) (h : step s = .next t)
    (ht : t.runState = .halted) : (decodeByte ir).isHalt = true := by
  have hrun : s.runState = .running := running_of_step_next h
  rcases step_next_cases h with ⟨r, -, rfl⟩ | ⟨ir₀, i, rest, e, -, -, hdec, heff, rfl⟩
  · cases ht
  · rw [advance_runState] at ht
    rcases heff.runState with hkept | ⟨⟨p, rfl⟩, -⟩
    · simp [ht, hrun] at hkept
    · rw [decodeByte_of_decode hir hdec]
      rfl

/-- Settles O26: the two bytes are those with `isHalt`, and the step's halt is HALT's. -/
theorem haltsExactlyOnHaltBytes : Obligations.HaltsExactlyOnHaltBytes := by
  intro s ir hrun hir
  rw [← mask_eq_one_iff, ← isHalt_iff_mask]
  exact ⟨step_of_isHalt hrun hir, fun _ => isHalt_of_step_halted hir⟩

/-! ### Which states step, and what a fault leaves -/

theorem step_answers_next {s : State} (hrun : s.runState = .running) : ∃ t, step s = .next t := by
  rcases step_cases hrun with ⟨-, e⟩ | ⟨-, -, -, -, -, e⟩ | ⟨ir, why, -, -, -, e⟩ | ⟨ir, i, -, -, -, -, -, e⟩
  · exact ⟨_, e⟩
  · exact ⟨_, e⟩
  · exact ⟨_, e⟩
  · obtain ⟨t, hexec, -⟩ := everyInstructionAnswersNextState i s
    exact ⟨_, e.trans (by rw [hexec, finishStep_next])⟩

/-- Settles O27: the step looks at the run state first, and by O18 every stage of a running one answers. -/
theorem successorExactlyWhenRunning : Obligations.SuccessorExactlyWhenRunning := by
  refine fun s => ⟨⟨fun ⟨_, h⟩ => running_of_step_next h, step_answers_next⟩, fun h => ?_, fun h => ?_⟩
  · simp only [step, engineStep, h]
  · simp only [step, engineStep, h]

/-- HALT apart, an effect leaves a running machine running, so no effect ends in FAULTED. -/
theorem Effect.runState_ne_faulted {s t : State} {i : Instr} (h : Effect s i t) (hrun : s.runState = .running) :
    t.runState ≠ .faulted := by
  rcases h.runState with e | ⟨-, rfl⟩
  · simp [e, hrun]
  · simp

/-- Settles O28: no effect ends in FAULTED, and a fault is taken whole. -/
theorem faultingStepChangesOnlyRecord : Obligations.FaultingStepChangesOnlyRecord := by
  intro s t h ht
  rcases step_next_cases h with ⟨r, hr, rfl⟩ | ⟨ir, i, rest, e, -, -, -, heff, rfl⟩
  · exact ⟨r, rfl, hr⟩
  · rw [advance_runState] at ht
    exact absurd ht (heff.runState_ne_faulted (running_of_step_next h))

end Sys2Proof.Machine

/-! The whole machine (spec/10_state.md, spec/40_engine_and_halt.md): the invariant over a step, at reset and after
loading, and the bound on the length of a run; the statements O35, O36 and O37. -/

namespace Sys2Proof.Machine

/-! ### Records a step can leave -/

theorem selects_opcodeByte (i : Instr) : selects i.opcodeByte i.operation := by
  simp [selects]

/-- The record of a rejected opcode byte is of the kind that the rejection is (rule R171 to rule R173). -/
theorem rejectRecord_possible {ir : Byte} {why : Reject} (pc : Pc) (h : select (decodeByte ir) = .error why) :
    RecordPossible (rejectRecord why ir pc) := by
  cases why <;> exact h

/-- HALT has no register operand, and a second one only ADD and MUL have (rule R83). -/
theorem operation_ne_halt_of_registerOperands {i : Instr} {b : Byte} {tl : List Byte}
    (h : i.registerOperands = b :: tl) : i.operation ≠ .halt := by
  cases i with
  | halt => cases h
  | loadImmediate | printRegister | push | pop | add | mul => nofun

theorem operation_of_two_registerOperands {i : Instr} {a b : Byte} (h : i.registerOperands = [a, b]) :
    i.operation = .add ∨ i.operation = .mul := by
  cases i with
  | add => exact .inl rfl
  | mul => exact .inr rfl
  | halt | loadImmediate | printRegister | push | pop => simp [Instr.registerOperands] at h

theorem reg_toNat_le (s : State) (i : Fin 8) : (s.reg i).toNat ≤ 255 := Nat.le_of_lt_succ (s.reg i).isLt

theorem Raises.possible {s : State} {i : Instr} {r : FaultRecord} (h : Raises s i r) : RecordPossible r := by
  cases h with
  | index0 _ b tl hr h =>
    exact ⟨h, _, selects_opcodeByte i, operation_ne_halt_of_registerOperands hr, nofun⟩
  | index1 _ k b hr h =>
    exact ⟨h, _, selects_opcodeByte i, operation_ne_halt_of_registerOperands hr,
      fun _ => operation_of_two_registerOperands hr⟩
  | sum p i j h =>
    exact ⟨h, .inl ⟨selects_opcodeByte _, Nat.add_le_add (reg_toNat_le s i) (reg_toNat_le s j)⟩⟩
  | product p i j h =>
    exact ⟨h, .inr ⟨selects_opcodeByte _, Nat.mul_le_mul (reg_toNat_le s i) (reg_toNat_le s j)⟩⟩
  | pushAtZero p i h => exact .inl ⟨selects_opcodeByte _, rfl⟩
  | popAtTop p i h => exact .inr ⟨selects_opcodeByte _, rfl⟩

/-! ### The invariant -/

theorem Effect.mem_wf {s t : State} {i : Instr} (h : Effect s i t) (hs : s.mem.wf) : t.mem.wf := by
  rcases h.mem_cases with hmem | ⟨-, -, v, -, -, hmem⟩ <;> rw [hmem]
  · exact hs
  · exact setCell_wf hs v (stackAddress_lt _)

/-- The pc's advance past an instruction that lies inside memory leaves the pc at most 256 (rule R28). -/
theorem advance_pc_le {c : Nat} {t : State} (hfit : t.pc.toNat + c < memSize) : (advance c t).pc.toNat ≤ memSize := by
  by_cases hrun : t.runState = .running
  · exact (advance_pc_toNat hrun hfit).trans_le hfit
  · rw [advance_ended hrun]
    omega

namespace Inv
variable {s : State}

/-- Without a fault record the last two clauses say only that the machine has not faulted. -/
theorem of_fault_eq_none (hmem : s.mem.wf) (hpc : s.pc.toNat ≤ memSize) (hfault : s.fault = none)
    (hrun : s.runState ≠ .faulted) : Inv s where
  memWf := hmem
  pcInRange := hpc
  recordIffFaulted := by simp [hfault, hrun]
  recordFits := by simp [hfault]

theorem fault_eq_none (h : Inv s) (hrun : s.runState = .running) : s.fault = none := by
  simpa [hrun] using h.recordIffFaulted

theorem takeFault_of_possible {r : FaultRecord} (h : Inv s) (hpc : recordPc r = s.pc) (hr : RecordPossible r) :
    Inv (takeFault r s) where
  memWf := h.memWf
  pcInRange := h.pcInRange
  recordIffFaulted := iff_of_true rfl rfl
  recordFits := by
    rintro _ ⟨⟩
    exact ⟨hpc, hr⟩

theorem advance_of_effect {e : State} {i : Instr} {c : Nat} (h : Inv s) (hrun : s.runState = .running)
    (hfit : s.pc.toNat + c < memSize) (heff : Effect s i e) : Inv (advance c e) := by
  obtain ⟨hpc, hfault⟩ := heff.control
  apply of_fault_eq_none
  · rw [advance_mem]
    exact heff.mem_wf h.memWf
  · exact advance_pc_le (hpc ▸ hfit)
  · rw [advance_fault, hfault, h.fault_eq_none hrun]
  · rw [advance_runState]
    exact heff.runState_ne_faulted hrun

end Inv

/-- Settles O35, stage by stage: a fault's record is possible and names the pc, and an effect keeps the clauses. -/
theorem everyStepKeepsInvariant : Obligations.EveryStepKeepsInvariant := by
  intro s t hs h
  have hrun : s.runState = .running := running_of_step_next h
  have hfault {r : FaultRecord} (e : step s = raise r s) (hpc : recordPc r = s.pc) (hr : RecordPossible r) :
      Inv t := by
    obtain rfl := Host.Outcome.next.inj (h.symm.trans e)
    exact hs.takeFault_of_possible hpc hr
  rcases step_cases hrun with ⟨hpast, e⟩ | ⟨-, -, -, -, -, e⟩ | ⟨ir, why, -, -, hsel, e⟩ |
    ⟨ir, i, rest, -, hfit, -, -, e⟩
  · exact hfault e rfl (le_antisymm hs.pcInRange hpast)
  · exact hfault e rfl rfl
  · exact hfault e (recordPc_rejectRecord why ir s.pc) (rejectRecord_possible s.pc hsel)
  · rcases exec_cases i s with ⟨t', heff, hexec⟩ | ⟨r, hr, hexec⟩
    · rw [hexec, finishStep_next] at e
      obtain rfl := Host.Outcome.next.inj (h.symm.trans e)
      exact hs.advance_of_effect hrun hfit heff
    · rw [hexec, finishStep_raise] at e
      exact hfault e hr.recordPc_eq hr.possible

theorem loadable_iff {p : List Nat} : loadable p = true ↔ p.length ≤ memSize ∧ ∀ v ∈ p, v ≤ 255 := by
  simp [loadable]

theorem boot_of_loadable {p : List Nat} (h : loadable p = true) :
    boot p = .next (State.reset.setMem (storeProgram State.reset.mem 0 p)) := if_pos h

theorem boot_of_not_loadable {p : List Nat} (h : ¬ loadable p = true) :
    boot p = .refused .programOutsideLoaderContract := if_neg h

/-- Settles O36: reset lists no cell and no record, and loading keeps the canonical form. -/
theorem resetAndLoadedStatesMeetInvariant : Obligations.ResetAndLoadedStatesMeetInvariant := by
  refine ⟨fun sp => .of_fault_eq_none (reset_mem_wf sp) (Nat.zero_le _) rfl nofun, fun p t h => ?_⟩
  by_cases hp : loadable p = true
  · obtain rfl := Host.Outcome.next.inj (h.symm.trans (boot_of_loadable hp))
    have hwf := storeProgram_wf (reset_mem_wf Config.spReset) 0 p (by simpa using (loadable_iff.mp hp).1)
    exact .of_fault_eq_none hwf (Nat.zero_le _) rfl nofun
  · cases h.symm.trans (boot_of_not_loadable hp)

/-! ### The length of a run -/

/-- Only HALT has no operand byte, and its effect ends the run. -/
theorem Effect.count_pos {s t : State} {i : Instr} (h : Effect s i t) (hrun : t.runState = .running) :
    1 ≤ i.descriptor.count.toNat := by
  refine count_pos_of_select (select_descriptor i) ?_
  cases h with
  | halt => cases hrun
  | load | print | push | pop | add | mul => nofun

/-- A step that leaves the machine running has moved the pc by 2 or more. -/
theorem pc_add_two_le_of_step {s t : State} (h : step s = .next t) (ht : t.runState = .running) :
    s.pc.toNat + 2 ≤ t.pc.toNat ∧ t.pc.toNat ≤ memSize := by
  rcases step_next_cases h with ⟨r, -, rfl⟩ | ⟨ir, i, rest, e, hir, hfit, hdec, heff, rfl⟩
  · cases ht
  · rw [advance_runState] at ht
    have hpc : e.pc = s.pc := heff.control.1
    have hmoved := advance_pc_toNat ht (hpc ▸ hfit)
    have hpos := heff.count_pos ht
    rw [hpc] at hmoved
    rw [← decodeByte_of_decode hir hdec] at hpos
    omega

/-- `n` steps are enough when fewer than `n` instructions of two bytes fit between the pc and the end of memory. -/
theorem run_ends_within (n : Nat) {s : State} (hrun : s.runState = .running) (hpc : s.pc.toNat ≤ memSize)
    (hn : (memSize - s.pc.toNat) / 2 < n) :
    ∃ k t, k ≤ n ∧ Host.Core.run Sys2Proof.core k s = .next t ∧ Ended t := by
  induction n generalizing s with
  | zero => omega
  | succ n ih =>
    obtain ⟨t, ht⟩ := step_answers_next hrun
    by_cases htrun : t.runState = .running
    · obtain ⟨hmoved, hle⟩ := pc_add_two_le_of_step ht htrun
      obtain ⟨k, u, hk, hu, hend⟩ := ih htrun hle (by omega)
      exact ⟨k + 1, u, Nat.succ_le_succ hk, (run_succ k ht).trans hu, hend⟩
    · exact ⟨1, t, Nat.le_add_left 1 n, run_succ 0 ht, htrun⟩

/-- Settles O37: every step that does not end the run uses up two bytes or more between the pc and the end of memory. -/
theorem everyRunEndsWithin129Steps : Obligations.EveryRunEndsWithin129Steps :=
  fun _ hrun hpc => run_ends_within _ hrun hpc (Nat.lt_succ_self _)

end Sys2Proof.Machine

/-! Memory as its cells, and the host's side of the machine (spec/20_memory.md, spec/70_reset_and_hazards.md): reset, the
loader, the text of an output line and a placed table word; the statements O40 to O44. -/

namespace Sys2Proof.Machine

/-! ### The canonical form -/

/-- A canonical memory lists exactly the cells that read as something else than an unlisted one. -/
theorem mem_cells_iff {m : Memory} (hm : m.wf) (c : Host.Cell) :
    c ∈ m.cells ↔ memRead m c.1 = some c.2 ∧ c.2 ≠ Memory.unlisted := by
  obtain ⟨hrising, hcells⟩ := hm
  constructor
  · intro hc
    obtain ⟨hlt, hne⟩ := hcells c hc
    exact ⟨(memRead_of_lt m hlt).trans (congrArg some (lookupCell_of_mem hrising hc)), hne⟩
  · rintro ⟨hread, hne⟩
    have hlook := lookupCell_of_memRead hread
    by_cases hlisted : ∃ v, (c.1, v) ∈ m.cells
    · obtain ⟨v, hv⟩ := hlisted
      obtain rfl : v = c.2 := (lookupCell_of_mem hrising hv).symm.trans hlook
      exact hv
    · exact absurd (hlook.symm.trans (lookupCell_of_unlisted (not_exists.mp hlisted))) hne

/-- Settles O40: what reads alike lists the same cells, and a rising list is determined by its members. -/
theorem memoriesThatReadAlikeAreEqual : Obligations.MemoriesThatReadAlikeAreEqual := by
  intro m n hm hn hread
  have hirrefl : Std.Irrefl fun c d : Host.Cell => c.1 < d.1 := ⟨fun c => lt_irrefl c.1⟩
  have hantisymm : Std.Antisymm fun c d : Host.Cell => c.1 < d.1 := ⟨fun _ _ hcd hdc => absurd hcd hdc.asymm⟩
  have hcells : m.cells = n.cells := hm.1.eq_of_mem_iff hn.1 fun c => by
    rw [mem_cells_iff hm, mem_cells_iff hn, hread]
  cases m
  cases n
  exact congrArg Memory.mk hcells

/-! ### Reset and the loader -/

theorem resetWith_eq_setReg (sp : Byte) :
    State.resetWith sp = (State.resetWith Config.gprReset).setReg spIndex sp := rfl

theorem reg_resetWith_gprReset (k : Fin 8) : (State.resetWith Config.gprReset).reg k = 0x00 := by
  revert k; decide

theorem memRead_resetWith (sp : Byte) {a : Nat} (h : a < memSize) :
    memRead (State.resetWith sp).mem a = some 0x00 := memRead_of_lt _ h

/-- Settles O41: the register file is all zero but for the write of register 7. -/
theorem resetStateIsAsListed : Obligations.ResetStateIsAsListed := by
  refine ⟨fun sp => ⟨?_, fun k hk => ?_, rfl, rfl, rfl, rfl, fun a => memRead_resetWith sp⟩, rfl, fun _ => rfl⟩
  · rw [resetWith_eq_setReg, reg_setReg_same]
  · rw [resetWith_eq_setReg, reg_setReg_other _ _ hk.symm, reg_resetWith_gprReset]

/-- Settles O42: the stored program reads back value by value, and the cells above it as reset left them. -/
theorem loaderFillsMemoryFromZero : Obligations.LoaderFillsMemoryFromZero := by
  refine fun p => ⟨fun hlen hval => ?_, fun hbad => boot_of_not_loadable fun hp => ?_⟩
  · have hread {b : Nat} (hb : b < memSize) : memRead (storeProgram State.reset.mem 0 p) b =
        ((p[b]?).map (BitVec.ofNat 8)).orElse fun _ => some 0x00 := by
      rw [memRead_storeProgram p _ 0 (Nat.zero_add _ ▸ hlen), if_neg (Nat.not_lt_zero b),
        show memRead State.reset.mem b = some 0x00 from memRead_resetWith _ hb, Nat.sub_zero]
    refine ⟨_, boot_of_loadable (loadable_iff.mpr ⟨hlen, hval⟩), fun a v hv => ?_, fun a hpast ha => ?_,
      .refl [] _, ⟨rfl, rfl, rfl⟩, rfl⟩
    · have ha : a < p.length := (List.getElem?_eq_some_iff.mp hv).1
      rw [setMem_mem, hread (ha.trans_le hlen), hv]
      rfl
    · rw [setMem_mem, hread ha, List.getElem?_eq_none hpast]
      rfl
  · obtain ⟨hlen, hval⟩ := loadable_iff.mp hp
    rcases hbad with hlong | ⟨v, hv, hbig⟩
    · exact absurd hlen (Nat.not_le.mpr hlong)
    · exact absurd (hval v hv) (Nat.not_le.mpr hbig)

/-! ### The text of an output line -/

theorem digitChar_toNat {d : Nat} (h : d < 10) : (Nat.digitChar d).toNat = 48 + d := by
  revert d; decide

/-- The library's digits below 1000, cut off one at a time from the right. -/
theorem toDigits_eq_decimalDigits {n : Nat} (h : n < 1000) :
    Nat.toDigits 10 n = (decimalDigits n).map Nat.digitChar := by
  unfold decimalDigits
  split
  case isTrue h1 => exact Nat.toDigits_of_lt_base h1
  case isFalse h1 =>
    rw [Nat.toDigits_of_base_le (by decide) (Nat.not_lt.mp h1)]
    split
    case isTrue h2 =>
      rw [Nat.toDigits_of_lt_base (by omega)]
      rfl
    case isFalse h2 =>
      rw [Nat.toDigits_of_base_le (by decide) (by omega), Nat.toDigits_of_lt_base (by omega),
        Nat.div_div_eq_div_mul]
      rfl

theorem lt_ten_of_mem_decimalDigits {n d : Nat} (h : n < 1000) (hd : d ∈ decimalDigits n) : d < 10 := by
  unfold decimalDigits at hd
  split at hd
  case isTrue h1 => exact List.mem_singleton.mp hd ▸ h1
  case isFalse h1 =>
    split at hd
    case isTrue h2 =>
      simp only [List.mem_cons, List.not_mem_nil, or_false] at hd
      omega
    case isFalse h2 =>
      simp only [List.mem_cons, List.not_mem_nil, or_false] at hd
      omega

/-- Settles O43: the same digits, each the ASCII code of the library's character. -/
theorem outputLineIsDecimalWithLineFeed : Obligations.OutputLineIsDecimalWithLineFeed := by
  intro v
  have hv : v.toNat < 1000 := v.isLt.trans (by decide)
  rw [outputLine, toDigits_eq_decimalDigits hv, List.map_map]
  refine congrArg (· ++ [10]) (List.map_congr_left fun d hd => ?_)
  rw [Function.comp_apply, digitChar_toNat (lt_ten_of_mem_decimalDigits hv hd)]

/-! ### A placed table word -/

theorem makeRunning_runState (s : State) : (makeRunning s).runState = .running := by
  unfold makeRunning
  split
  · assumption
  · rfl
  · rfl

theorem makeRunning_regs (s : State) : (makeRunning s).regs = s.regs := by
  unfold makeRunning
  split <;> rfl

theorem makeRunning_out (s : State) : (makeRunning s).out = s.out := by
  unfold makeRunning
  split <;> rfl

/-- Bytes stored inside memory are read back from the same address. -/
theorem bytesFrom_storeBytes (m : Memory) {a n : Nat} {bs : List Byte} (hn : n ≤ bs.length) (ha : a + n ≤ memSize) :
    bytesFrom (storeBytes m a bs) a n = bs.take n := by
  refine List.ext_getElem ?_ fun k hk hk' => ?_
  · rw [length_bytesFrom ha, List.length_take_of_le hn]
  · rw [length_bytesFrom ha] at hk
    apply Option.some.inj
    rw [← List.getElem?_eq_getElem, ← List.getElem?_eq_getElem, List.getElem?_take_of_lt hk,
      getElem?_bytesFrom _ hk (by omega), memRead_storeBytes _ _ _ (by omega), if_neg (by omega),
      Nat.add_sub_cancel_left, List.getElem?_eq_getElem (by omega)]
    rfl

theorem decode_of_decodeTableWord {nbits w : Nat} {i : Instr} (h : decodeTableWord nbits w = some i) :
    ∃ rest, decode (wordBytes nbits w) = .ok (i, rest) := by
  unfold decodeTableWord at h
  split at h
  · rename_i rest hdec
    exact ⟨rest, Option.some.inj h ▸ hdec⟩
  · cases h

/-- A word is placed where its instruction's bytes end inside memory. -/
theorem placeAddress_add_count_lt (s : State) (b : Byte) :
    (placeAddress s b).toNat + (decodeByte b).count.toNat < memSize := by
  unfold placeAddress
  split
  · assumption
  · exact (Nat.zero_add _).trans_lt ((count_le_three _).trans_lt (by decide))

theorem withFetchWord_pc (s : State) (nbits w : Nat) :
    (s.withFetchWord nbits w).pc = placeAddress s (wordByte nbits w 0) := rfl

theorem withFetchWord_mem (s : State) (nbits w : Nat) : (s.withFetchWord nbits w).mem =
    storeBytes s.mem (s.withFetchWord nbits w).pc.toNat (wordBytes nbits w) := rfl

theorem decode_of_take_eq_encode {bs : List Byte} {i : Instr} (h : bs.take (encode i).length = encode i) :
    ∃ rest, decode bs = .ok (i, rest) := by
  have hsplit := List.take_append_drop (encode i).length bs
  rw [h] at hsplit
  rw [← hsplit]
  exact ⟨_, decode_encode_append i _⟩

/-- The bytes at the pc begin with the word's instruction, even where the word runs past the end of memory. -/
theorem take_codeAtPc_withFetchWord (s : State) {nbits w : Nat} {i : Instr} (h : decodeTableWord nbits w = some i) :
    (codeAtPc (s.withFetchWord nbits w)).take (encode i).length = encode i := by
  obtain ⟨rest, hdec⟩ := decode_of_decodeTableWord h
  have hword : wordBytes nbits w = encode i ++ rest := eq_encode_append_of_decode hdec
  have hfirst : wordByte nbits w 0 = i.opcodeByte := (List.cons.inj hword).1
  have hlen : (encode i).length ≤ 4 := by
    rw [length_encode]
    exact Nat.succ_le_succ (count_le_three _)
  have hfit : (s.withFetchWord nbits w).pc.toNat + (encode i).length ≤ memSize := by
    rw [withFetchWord_pc, hfirst, length_encode, ← decodeByte_opcodeByte]
    exact placeAddress_add_count_lt s i.opcodeByte
  calc (codeAtPc (s.withFetchWord nbits w)).take (encode i).length
    _ = bytesFrom (s.withFetchWord nbits w).mem (s.withFetchWord nbits w).pc.toNat (encode i).length :=
      take_bytesFrom _ _ hlen
    _ = (wordBytes nbits w).take (encode i).length := by
      rw [withFetchWord_mem, bytesFrom_storeBytes _ hlen hfit]
    _ = encode i := by rw [hword, List.take_left]

/-- Settles O44: placing keeps the registers and the log, and stores the bytes that the next step decodes. -/
theorem placedWordIsFetchedNext : Obligations.PlacedWordIsFetchedNext :=
  fun s _ _ _ h => ⟨makeRunning_runState s, decode_of_take_eq_encode (take_codeAtPc_withFetchWord s h),
    fun k _ => congrArg (·[k]) (makeRunning_regs s), makeRunning_out s⟩

end Sys2Proof.Machine
